-- ==== Sys2Proof/Word.lean ====
section
/-! DEFINITION. The word type of the core.

00_scope.md R7: "Values in pseudocode are mathematical integers unless a width is stated", and
R5 leaves the width `W` open. So a word is an `Int`; that it lies in `[-2^(W-1), 2^(W-1) - 1]`
(R6) is the predicate `Sys2Proof.Machine.FitsW`, and the invariant `State.Inv` (Safety.lean) says
that every word the machine holds satisfies it. The core has no bit-level operations (R7), so no
bit vector appears in the model. See notes/assumptions/1.md. -/

namespace Sys2Proof

/-- One memory cell's value (00_scope.md R6), as the integer it holds. -/
abbrev Word := Int

end Sys2Proof
end

