-- ==== Sys2Proof/Machine/Numbers.lean ====
section
/-! DEFINITION. The number primitives of 00_scope.md R7 and R8. -/

namespace Sys2Proof.Machine

/-- `2^(W-1)`: one more than the largest word, and the bound on `N` (R5, R6). -/
def halfRange (W : Nat) : Nat := 2 ^ (W - 1)

/-- `fits_W(v)` of R7: `v` is a word. -/
abbrev FitsW (W : Nat) (v : Int) : Prop :=
  -(halfRange W : Int) ≤ v ∧ v ≤ (halfRange W : Int) - 1

/-- `wrap_W(v)` of R7: the word congruent to `v` modulo `2^W`. -/
def wrapW (W : Nat) (v : Int) : Word := Int.bmod v (2 ^ W)

/-- `digit(a, k)` of R8: the decimal digit of weight `10^k`. -/
def digit (a k : Nat) : Nat := a / 10 ^ k % 10

end Sys2Proof.Machine
end

