-- ==== Sys2Proof/Config.lean ====
section
/-! DEFINITION. The host's moves, the implementation parameters of 00_scope.md R5, and the free
values. -/

namespace Sys2Proof

/-! ### The host's moves -/

namespace Machine

/-- A host answer to an input request (42_io.md R75). -/
inductive InAnswer where
  /-- `InValue(v)`, any integer `v` -/
  | value (v : Int)
  /-- `InMalformed` -/
  | malformed
  deriving DecidableEq, Repr

/-- A move of the host (42_io.md R75, R81; 70_reset_and_hazards.md R109). -/
inductive HostMove where
  /-- answer the outstanding input request -/
  | answer (a : InAnswer)
  /-- `OutAck`: accept the outstanding output -/
  | outAck
  /-- load and start an image -/
  | load (image : List Word)
  /-- do nothing for one step: an answer that comes later -/
  | idle
  deriving DecidableEq, Repr, Inhabited

end Machine

/-! ### The parameters -/

/-- What Add and Multiply do when the exact result does not fit in `W` bits (R5, D2). -/
inductive OverflowPolicy where
  /-- the instruction raises Overflow, the default -/
  | fault
  /-- the result is wrapped to `W` bits -/
  | wrap
  deriving DecidableEq, Repr

/-- The parameters of R5 that are fixed for a core. `N`, the fourth one, is set by each load and
is the size of the memory (`Memory.size`). -/
structure Params where
  /-- width in bits of a word; legal values `W >= 18` (D1) -/
  W : Nat
  overflowPolicy : OverflowPolicy
  /-- whether mode 1 on a write target is a decode error (D5) -/
  strictWriteMode : Bool
  deriving DecidableEq, Repr

/-- The defaults R5 gives: 64, `fault`, `false`. -/
def Params.default : Params :=
  { W := 64, overflowPolicy := .fault, strictWriteMode := false }

/-! ### The free values -/

/-- FREE VALUE. What `io_latch` holds after a load ("`io_latch` is unspecified after load",
70_reset_and_hazards.md R109; 93_implementation_defined.md U6: any value). It has no body; the
load operation applies it to a counter of State and keeps the result in the range of a word.
notes/assumptions/6.md. -/
opaque Config.freeLatch : Nat → Int

/-- FREE VALUE. What a host that nothing is assumed about does, move by move (42_io.md R81;
40_execution_cycle.md R70: the external choices are the input values and "whether and when the host
answers each I/O request"). It has no body, and it is applied to the counter `State.hostIndex`; a move
the host may not make then counts as none. notes/assumptions/23.md. -/
opaque Config.freeHostMove : Nat → Machine.HostMove

end Sys2Proof
end

