-- ==== Sys2Proof/Syntax.lean ====
section
/-! DEFINITION. The instructions: one constructor per row of spec/opcode_table.json.

A decoded instruction is "a structured Instruction {opcode, modes}" (30_encoding.md R51), "a
transient decoded value, never stored" (10_state.md R22). Its parameters are the words of memory
after the instruction word; they are fetched while the instruction resolves them, one after the
other (40_execution_cycle.md R63), so they are no fields of `Instr` (notes/assumptions/14.md).
Every constructor carries all three mode digits, also those its opcode has no parameter for
(R49, R50). -/

namespace Sys2Proof

/-- A parameter mode, the mode digit 0 or 1 (30_encoding.md R49). -/
inductive Mode where
  /-- digit 0: indirect through memory -/
  | position
  /-- digit 1: the literal word -/
  | immediate
  deriving DecidableEq, Repr

/-- The nine instructions (30_encoding.md R47) with `m1 m2 m3`, the modes of parameters 1 to 3. -/
inductive Instr where
  /-- opcode 1, Add -/
  | add (m1 m2 m3 : Mode)
  /-- opcode 2, Multiply -/
  | multiply (m1 m2 m3 : Mode)
  /-- opcode 3, Read (input) -/
  | read (m1 m2 m3 : Mode)
  /-- opcode 4, Write (output) -/
  | write (m1 m2 m3 : Mode)
  /-- opcode 5, JumpIfTrue -/
  | jumpIfTrue (m1 m2 m3 : Mode)
  /-- opcode 6, JumpIfFalse -/
  | jumpIfFalse (m1 m2 m3 : Mode)
  /-- opcode 7, LessThan -/
  | lessThan (m1 m2 m3 : Mode)
  /-- opcode 8, Equals -/
  | equals (m1 m2 m3 : Mode)
  /-- opcode 99, End -/
  | halt (m1 m2 m3 : Mode)
  deriving DecidableEq, Repr

end Sys2Proof
end

