-- ==== Sys2Proof/WellFormed.lean ====
section
/-! DEFINITION. Which instructions a core with given parameters accepts. -/

namespace Sys2Proof

/-- The mode digit of the instruction's write target, if its opcode has one: parameter 3 of Add,
Multiply, LessThan and Equals, and parameter 1 of Read (30_encoding.md R47, R54; C3). -/
def Instr.targetMode : Instr → Option Mode
  | .add _ _ m3 => some m3
  | .multiply _ _ m3 => some m3
  | .read m1 _ _ => some m1
  | .write _ _ _ => none
  | .jumpIfTrue _ _ _ => none
  | .jumpIfFalse _ _ _ => none
  | .lessThan _ _ m3 => some m3
  | .equals _ _ m3 => some m3
  | .halt _ _ _ => none

/-- The one check beyond the constructors' own shape: with `strict_write_mode`, a write target is
not in Immediate mode (30_encoding.md R51, R54, R56 item 4). -/
def WellFormed (p : Params) (i : Instr) : Bool :=
  !(p.strictWriteMode && decide (i.targetMode = some .immediate))

end Sys2Proof
end

