-- ==== Sys2Proof/Decode.lean ====
section
/-! DEFINITION. The decoder and the encoder (30_encoding.md).

`Decode(w)` of R51 is total on every word; every rejected word is a DecodeError of the core
(R56), and `Reject` names which condition of R56 it meets. -/

namespace Sys2Proof

open Sys2Proof.Machine

/-- Why a word is no instruction (30_encoding.md R56, in its order). All four raise the same
DecodeError; the name is for the reader and the tests. -/
inductive Reject where
  /-- `|w| > 99999` (R46) -/
  | tooManyDigits
  /-- the low two digits are no opcode (R47) -/
  | unknownOpcode
  /-- a mode digit above 1, whatever the opcode's arity (R49) -/
  | badModeDigit
  /-- mode 1 on a write target under `strict_write_mode` (R54) -/
  | immediateWriteTarget
  deriving DecidableEq, Repr

/-- The opcode map of R47. -/
def constructorOf (op : Nat) : Option (Mode → Mode → Mode → Instr) :=
  if op = 1 then some .add
  else if op = 2 then some .multiply
  else if op = 3 then some .read
  else if op = 4 then some .write
  else if op = 5 then some .jumpIfTrue
  else if op = 6 then some .jumpIfFalse
  else if op = 7 then some .lessThan
  else if op = 8 then some .equals
  else if op = 99 then some .halt
  else none

/-- A mode digit (R49). -/
def modeOf (d : Nat) : Option Mode :=
  if d = 0 then some .position else if d = 1 then some .immediate else none

/-- The three mode digits `d2 d3 d4` of `a` (R44). -/
def modesOf (a : Nat) : Option (Mode × Mode × Mode) :=
  match modeOf (digit a 2), modeOf (digit a 3), modeOf (digit a 4) with
  | some m1, some m2, some m3 => some (m1, m2, m3)
  | _, _, _ => none

/-- `Decode(w)` of R51. The sign is dropped first (R45). -/
def decode (p : Params) (w : Word) : Except Reject Instr :=
  if w.natAbs > 99999 then .error .tooManyDigits
  else
    match constructorOf (w.natAbs % 100) with
    | none => .error .unknownOpcode
    | some mk =>
      match modesOf w.natAbs with
      | none => .error .badModeDigit
      | some (m1, m2, m3) =>
        if WellFormed p (mk m1 m2 m3) then .ok (mk m1 m2 m3)
        else .error .immediateWriteTarget

/-! ### The instruction's parts, and the encoder -/

/-- The opcode (R47). -/
def Instr.opcode : Instr → Nat
  | .add _ _ _ => 1
  | .multiply _ _ _ => 2
  | .read _ _ _ => 3
  | .write _ _ _ => 4
  | .jumpIfTrue _ _ _ => 5
  | .jumpIfFalse _ _ _ => 6
  | .lessThan _ _ _ => 7
  | .equals _ _ _ => 8
  | .halt _ _ _ => 99

/-- The number of parameters (R43). -/
def Instr.arity : Instr → Nat
  | .add _ _ _ => 3
  | .multiply _ _ _ => 3
  | .read _ _ _ => 1
  | .write _ _ _ => 1
  | .jumpIfTrue _ _ _ => 2
  | .jumpIfFalse _ _ _ => 2
  | .lessThan _ _ _ => 3
  | .equals _ _ _ => 3
  | .halt _ _ _ => 0

/-- The three mode digits, parameter 1 first (R44). -/
def Instr.modes : Instr → Mode × Mode × Mode
  | .add m1 m2 m3 => (m1, m2, m3)
  | .multiply m1 m2 m3 => (m1, m2, m3)
  | .read m1 m2 m3 => (m1, m2, m3)
  | .write m1 m2 m3 => (m1, m2, m3)
  | .jumpIfTrue m1 m2 m3 => (m1, m2, m3)
  | .jumpIfFalse m1 m2 m3 => (m1, m2, m3)
  | .lessThan m1 m2 m3 => (m1, m2, m3)
  | .equals m1 m2 m3 => (m1, m2, m3)
  | .halt m1 m2 m3 => (m1, m2, m3)

/-- The digit of a mode (R49). -/
def Mode.digit : Mode → Nat
  | .position => 0
  | .immediate => 1

/-- `op + 100*m1 + 1000*m2 + 10000*m3` (R57), with every mode digit the instruction carries. -/
def encode (i : Instr) : Word :=
  ((i.opcode + 100 * i.modes.1.digit + 1000 * i.modes.2.1.digit
    + 10000 * i.modes.2.2.digit : Nat) : Int)

/-- The canonical form of an instruction (R57): mode 0 for every parameter the opcode lacks and
for every write target. -/
def Instr.canonical : Instr → Instr
  | .add m1 m2 _ => .add m1 m2 .position
  | .multiply m1 m2 _ => .multiply m1 m2 .position
  | .read _ _ _ => .read .position .position .position
  | .write m1 _ _ => .write m1 .position .position
  | .jumpIfTrue m1 m2 _ => .jumpIfTrue m1 m2 .position
  | .jumpIfFalse m1 m2 _ => .jumpIfFalse m1 m2 .position
  | .lessThan m1 m2 _ => .lessThan m1 m2 .position
  | .equals m1 m2 _ => .equals m1 m2 .position
  | .halt _ _ _ => .halt .position .position .position

/-! ### Words numbered as the opcode table numbers them -/

/-- Word `k` of an instruction whose bits are `bits`: `W` bits each, the first word lowest, read as
a two's-complement word (notes/assumptions/19.md). -/
def tableWord (W bits k : Nat) : Word := wrapW W ((bits / 2 ^ (W * k) : Nat) : Int)

/-- The decoder's answer without the reason of a rejection. -/
def accepted : Except Reject Instr → Option Instr
  | .ok i => some i
  | .error _ => none

/-- The instruction the decoder reads from the first word of `w`'s low `nbits` bits, on a core
with the default parameters. -/
def decodeTableWord (nbits w : Nat) : Option Instr :=
  accepted (decode Params.default (tableWord Params.default.W (w % 2 ^ nbits) 0))

end Sys2Proof
end

