-- ==== Sys2Proof/Machine/State.lean ====
section
/-! DEFINITION. The state of the core (10_state.md), what can stop a step, and the state after reset. -/

namespace Sys2Proof.Machine

/-- The execution state (10_state.md R18, R19). -/
inductive RunState where
  | running
  /-- a Read waits for an input value -/
  | waitIn
  /-- a Write waits for the sink to accept -/
  | waitOut
  | halted
  | faulted
  deriving DecidableEq, Repr

/-- Why the run faulted (10_state.md R20, 60_exceptions.md R95). -/
inductive FaultCause where
  | none
  | parseError
  | decodeError
  | addressError
  | overflow
  deriving DecidableEq, Repr

/-- How the host goes on after the moves of `State.host` are made (42_io.md R81;
notes/assumptions/8.md). -/
inductive HostRest where
  /-- it never moves again: the run in which the host never answers -/
  | silent
  /-- it answers every request: it accepts each output, and gives each input request the next one of
  these answers, going round them without end -/
  | answering (next : InAnswer) (later : List InAnswer)
  /-- it moves as `Config.freeHostMove` says, without end -/
  | free
  deriving DecidableEq, Repr

/-- The memory `M[0..N-1]` (10_state.md R17): `size` is `N`, and `cells` lists, by strictly rising
address, the words that are not 0. An address below `size` that is not listed holds the word 0
(notes/assumptions/7.md). The canonical form is `Memory.wf` in Machine/Ops.lean. -/
structure Memory where
  size : Nat
  cells : List (Nat × Word)
  deriving DecidableEq, Repr

/-- The state. The first block is the spec's list (10_state.md section 1 and R110); `params` carries
the configuration (R5; notes/assumptions/1.md); the last block is the model's own
(notes/assumptions/6.md, 8.md and 23.md). -/
structure State where
  pc : Nat
  mem : Memory
  runState : RunState
  faultCause : FaultCause
  faultPc : Nat
  faultInfo : Int
  ioLatch : Word
  /-- the input answers consumed since the load, oldest first (R82, R110) -/
  inputLog : List InAnswer
  /-- the output words accepted since the load, oldest first (R82, R110) -/
  outputLog : List Word
  params : Params
  /-- the moves the host has decided to make, next one first -/
  host : List HostMove
  /-- how it decides the moves after those -/
  hostRest : HostRest
  /-- how many free moves of the host have been drawn -/
  hostIndex : Nat
  /-- how many free values of the latch have been drawn -/
  freeIndex : Nat
  deriving DecidableEq, Repr

/-- What stops a step of the Lean machine. A FAULT OF THE CORE IS NOT HERE: it is a next state with
`runState = faulted` (60_exceptions.md R96; notes/assumptions/17.md). -/
inductive Fault where
  /-- Raised by `step`, never by a meaning: the parameters are not legal (00_scope.md R5: `W >= 18`,
  `N <= 2^(W-1)`), so the spec describes no such core. Safe: the model says nothing of a machine
  the spec does not describe (notes/assumptions/12.md). -/
  | illegalParameters
  deriving DecidableEq, Repr

/-- Why a step has no meaning. -/
inductive Refusal where
  /-- Raised by an arm of `exec` for an instruction that has no meaning yet; no arm does. Safe. -/
  | notModelled (mnemonic : String)
  deriving DecidableEq, Repr

/-- The state after load and start (70_reset_and_hazards.md R109, R110) of the EMPTY image, on a core
with the default parameters, before the host makes any move. The image is the host's to choose
(notes/assumptions/4.md); `ioLatch` is unspecified by the spec and named 0 here
(notes/assumptions/5.md); `params`, `host`, `hostRest`, `hostIndex`, `freeIndex`:
notes/assumptions/1.md, 8.md, 23.md, 6.md. -/
def State.reset : State :=
  { pc := 0
    mem := { size := 0, cells := [] }
    runState := .running
    faultCause := .none
    faultPc := 0
    faultInfo := 0
    ioLatch := 0
    inputLog := []
    outputLog := []
    params := Params.default
    host := []
    hostRest := .silent
    hostIndex := 0
    freeIndex := 0 }

end Sys2Proof.Machine
end

