-- ==== Sys2Proof/Machine/Ops.lean ====
section
/-! DEFINITION. The named operations over memory, `pc` and the fault record. -/

namespace Sys2Proof.Machine

/-! ### Memory as data -/

/-- The word a list of cells holds at an address: 0 where it lists none. -/
def cellsGet : List (Nat × Word) → Nat → Word
  | [], _ => 0
  | (b, u) :: rest, a => if a = b then u else cellsGet rest a

/-- A list of cells with one word changed, in canonical form again: the word 0 is not listed. -/
def cellsSet : List (Nat × Word) → Nat → Word → List (Nat × Word)
  | [], a, v => if v = 0 then [] else [(a, v)]
  | (b, u) :: rest, a, v =>
    if a < b then (if v = 0 then (b, u) :: rest else (a, v) :: (b, u) :: rest)
    else if a = b then (if v = 0 then rest else (a, v) :: rest)
    else (b, u) :: cellsSet rest a v

/-- The canonical form: addresses rise strictly from `lo` and stay below `size`, no word is 0. -/
def cellsWf (lo size : Nat) : List (Nat × Word) → Bool
  | [] => true
  | (a, v) :: rest =>
    decide (lo ≤ a) && decide (a < size) && decide (v ≠ 0) && cellsWf (a + 1) size rest

/-- The cells of an image whose first word stands at address `k`. -/
def cellsOf : Nat → List Word → List (Nat × Word)
  | _, [] => []
  | k, v :: rest => if v = 0 then cellsOf (k + 1) rest else (k, v) :: cellsOf (k + 1) rest

def Memory.get (m : Memory) (a : Nat) : Word := cellsGet m.cells a

def Memory.set (m : Memory) (a : Nat) (v : Word) : Memory :=
  { m with cells := cellsSet m.cells a v }

/-- The memory is in its one canonical form. -/
def Memory.wf (m : Memory) : Bool := cellsWf 0 m.size m.cells

/-- Every listed word is a word of `W` bits (00_scope.md R6). -/
def Memory.fits (W : Nat) (m : Memory) : Bool := m.cells.all (fun c => decide (FitsW W c.2))

/-- `M[k] <- image[k]` for every `k`, `N` the image's length (70_reset_and_hazards.md R109). -/
def Memory.ofImage (image : List Word) : Memory :=
  { size := image.length, cells := cellsOf 0 image }

/-! ### Raising, and TAKING AN EXCEPTION -/

/-- `raise E(info)` (00_scope.md R9): the cause and what `fault_info` will hold. -/
structure Raise where
  cause : FaultCause
  info : Int
  deriving DecidableEq, Repr

/-- The numeric code of a cause (60_exceptions.md R95). -/
def FaultCause.code : FaultCause → Nat
  | .none => 0
  | .parseError => 1
  | .decodeError => 2
  | .addressError => 3
  | .overflow => 4

/-- Fault entry, the one shared operation (60_exceptions.md R96): `run_state <- FAULTED`, the cause,
`fault_pc <- pc`, the info; nothing else changes, `pc` included (R97). There is no handler address
and no return (R98). -/
def enterFault (e : Raise) (s : State) : State :=
  { s with runState := .faulted, faultCause := e.cause, faultPc := s.pc, faultInfo := e.info }

/-- How an instruction ends: it commits its new state, or it takes the exception it raised from
the state it started in (40_execution_cycle.md R65, 60_exceptions.md R97). -/
def finish (s : State) (r : Except Raise State) : Host.Outcome State Fault Refusal :=
  match r with
  | .ok t => .next t
  | .error e => .next (enterFault e s)

/-! ### The access primitives -/

/-- An address that names a word (20_memory.md R25). -/
abbrev InRange (s : State) (a : Int) : Prop := 0 ≤ a ∧ a < (s.mem.size : Int)

/-- An address that names no word (20_memory.md R26). -/
abbrev OutOfRange (m : Memory) (a : Int) : Prop := a < 0 ∨ a ≥ (m.size : Int)

/-- `MemRead(a, 1)` (20_memory.md R33). -/
def memRead (s : State) (a : Int) : Except Raise Word :=
  if OutOfRange s.mem a then .error ⟨.addressError, a⟩ else .ok (s.mem.get a.toNat)

/-- `MemWrite(a, 1, v)` (20_memory.md R34). -/
def memWrite (s : State) (a : Int) (v : Word) : Except Raise State :=
  if OutOfRange s.mem a then .error ⟨.addressError, a⟩
  else .ok { s with mem := s.mem.set a.toNat v }

/-- `pc <- a`. -/
def State.setPc (s : State) (a : Nat) : State := { s with pc := a }

/-! ### Fetch and decode -/

/-- Fetch and decode (40_execution_cycle.md R61, R62): AddressError(pc) past the end of memory,
DecodeError(w) on a word that is no instruction. -/
def fetchDecode (s : State) : Except Raise Instr :=
  match memRead s (s.pc : Int) with
  | .error e => .error e
  | .ok w =>
    match decode s.params w with
    | .ok i => .ok i
    | .error _ => .error ⟨.decodeError, w⟩

/-! ### Legal parameters, and load -/

/-- The parameters have legal values (00_scope.md R5). -/
def State.legal (s : State) : Bool :=
  decide (18 ≤ s.params.W) && decide (s.mem.size ≤ halfRange s.params.W)

/-- An image the host may load: at most `2^(W-1)` words (00_scope.md R5), each of which fits
(70_reset_and_hazards.md R112). -/
def imageLegal (p : Params) (image : List Word) : Bool :=
  decide (image.length ≤ halfRange p.W) && image.all (fun v => decide (FitsW p.W v))

/-- Load and start (70_reset_and_hazards.md R109). `io_latch` becomes a free value, any word (R109,
U6; notes/assumptions/6.md). -/
def loadStart (image : List Word) (s : State) : State :=
  { s with
    mem := Memory.ofImage image
    pc := 0
    runState := .running
    faultCause := .none
    faultPc := 0
    faultInfo := 0
    ioLatch := wrapW s.params.W (Config.freeLatch s.freeIndex)
    inputLog := []
    outputLog := []
    freeIndex := s.freeIndex + 1 }

/-! ### What the host sees -/

/-- The outstanding request (42_io.md R75). -/
inductive Request where
  | inReq
  | outReq (v : Word)
  deriving DecidableEq, Repr

/-- At most one request is outstanding, and it stays until the host answers it (42_io.md R75). -/
def State.request (s : State) : Option Request :=
  match s.runState with
  | .waitIn => some .inReq
  | .waitOut => some (.outReq s.ioLatch)
  | .running => none
  | .halted => none
  | .faulted => none

/-- The status interface (42_io.md R84, 10_state.md R20): read-only. DESIGN CHOICE: it shows `M` in
every execution state, as 10_state.md R24 and 42_io.md R75 say ("at any time"), although 20_memory.md
R42 says that the host does not read `M` during a run (notes/assumptions/22.md). -/
structure Status where
  runState : RunState
  pc : Nat
  mem : Memory
  faultCause : Nat
  faultPc : Nat
  faultInfo : Int
  deriving DecidableEq, Repr

def State.status (s : State) : Status :=
  { runState := s.runState
    pc := s.pc
    mem := s.mem
    faultCause := s.faultCause.code
    faultPc := s.faultPc
    faultInfo := s.faultInfo }

/-- What the host observes at the end of a run (40_execution_cycle.md R68). -/
structure RunReport where
  status : Status
  outputs : List Word
  inputsConsumed : Nat
  deriving DecidableEq, Repr

def State.report (s : State) : RunReport :=
  { status := s.status, outputs := s.outputLog, inputsConsumed := s.inputLog.length }

/-! ### Placing an instruction (for the host's checks) -/

/-- Write words one after the other from address `a`. -/
def Memory.place (m : Memory) (a : Nat) : List Word → Memory
  | [] => m
  | v :: rest => Memory.place (m.set a v) (a + 1) rest

/-- The state with an instruction's four words at `pc`, the memory long enough to hold them, and the
core running. -/
def placeInstruction (s : State) (words : List Word) : State :=
  { s with
    mem := Memory.place { s.mem with size := max s.mem.size (s.pc + words.length) } s.pc words
    runState := .running }

/-- The four words of an instruction whose bits are `bits`. -/
def tableWords (W bits : Nat) : List Word :=
  [tableWord W bits 0, tableWord W bits 1, tableWord W bits 2, tableWord W bits 3]

end Sys2Proof.Machine
end

