-- ==== Sys2Proof/Machine/Operands.lean ====
section
/-! DEFINITION. The addressing-mode resolver (30_encoding.md section 5): every operand form. -/

namespace Sys2Proof.Machine

/-- The parameter word `M[pc + i]` (10_state.md R15). -/
def paramWord (s : State) (i : Nat) : Except Raise Word := memRead s ((s.pc + i : Nat) : Int)

/-- `ReadParam(i, m)` (30_encoding.md R53): the literal word, or the word it addresses. -/
def readParam (s : State) (i : Nat) (m : Mode) : Except Raise Word :=
  match paramWord s i with
  | .error e => .error e
  | .ok p =>
    match m with
    | .immediate => .ok p
    | .position => memRead s p

/-- `WriteAddr(i, m)` (30_encoding.md R54): always an address, whatever the mode, and checked here
(R55). -/
def writeAddr (s : State) (i : Nat) (_m : Mode) : Except Raise Word :=
  match paramWord s i with
  | .error e => .error e
  | .ok t => if OutOfRange s.mem t then .error ⟨.addressError, t⟩ else .ok t

end Sys2Proof.Machine
end

