-- ==== Sys2Proof/Machine/Alu.lean ====
section
/-! DEFINITION. The ALU law, and the two instruction shapes that several opcodes share. -/

namespace Sys2Proof.Machine

/-- The exact sum (opcode 1) or product (41_arithmetic.md R71). -/
def exactResult (op : Nat) (a b : Int) : Int := if op = 1 then a + b else a * b

/-- An exact result narrowed to a word, or handled by `overflow_policy` (41_arithmetic.md R71). -/
def narrow (p : Params) (op : Nat) (e : Int) : Except Raise Word :=
  if FitsW p.W e then .ok e
  else
    match p.overflowPolicy with
    | .fault => .error ⟨.overflow, (op : Int)⟩
    | .wrap => .ok (wrapW p.W e)

/-- `Arith(op, a, b)` (41_arithmetic.md R71). -/
def arith (p : Params) (op : Nat) (a b : Word) : Except Raise Word :=
  narrow p op (exactResult op a b)

/-- The shape of opcodes 1, 2, 7 and 8 (40_execution_cycle.md R67): resolve parameters 1, 2, 3 in
order, compute, write the target, advance by 4. -/
def threeParam (alu : Word → Word → Except Raise Word) (m1 m2 m3 : Mode) (s : State) :
    Except Raise State :=
  match readParam s 1 m1 with
  | .error e => .error e
  | .ok a =>
    match readParam s 2 m2 with
    | .error e => .error e
    | .ok b =>
      match writeAddr s 3 m3 with
      | .error e => .error e
      | .ok t =>
        match alu a b with
        | .error e => .error e
        | .ok r =>
          match memWrite s t r with
          | .error e => .error e
          | .ok s' => .ok (s'.setPc (s.pc + 4))

/-- A taken jump (43_jump.md R86): a negative target raises at the jump. -/
def jumpTo (d : Int) (s : State) : Except Raise State :=
  if d < 0 then .error ⟨.addressError, d⟩ else .ok (s.setPc d.toNat)

/-- The shape of opcodes 5 and 6: both parameters are resolved, taken or not
(40_execution_cycle.md R63). -/
def conditionalJump (taken : Word → Bool) (m1 m2 : Mode) (s : State) : Except Raise State :=
  match readParam s 1 m1 with
  | .error e => .error e
  | .ok c =>
    match readParam s 2 m2 with
    | .error e => .error e
    | .ok d => if taken c then jumpTo d s else .ok (s.setPc (s.pc + 3))

end Sys2Proof.Machine
end

