-- ==== Sys2Proof/Machine/Arithmetic.lean ====
section
/-! DEFINITION. Add and Multiply (41_arithmetic.md). -/

namespace Sys2Proof.Machine

/-- Add, opcode 1 (41_arithmetic.md R72). -/
def execAdd (m1 m2 m3 : Mode) (s : State) : Host.Outcome State Fault Refusal :=
  finish s (threeParam (arith s.params 1) m1 m2 m3 s)

/-- Multiply, opcode 2 (41_arithmetic.md R73). -/
def execMultiply (m1 m2 m3 : Mode) (s : State) : Host.Outcome State Fault Refusal :=
  finish s (threeParam (arith s.params 2) m1 m2 m3 s)

end Sys2Proof.Machine
end

