-- ==== Sys2Proof/Machine/Flags.lean ====
section
/-! DEFINITION. Conditions as words. The core has no flags (10_state.md R12): a compare writes the
word 1 or 0, and a jump tests a word. -/

namespace Sys2Proof.Machine

/-- A truth value as a compare writes it (44_compare.md R91): exactly 1 or exactly 0. -/
def truthWord (b : Bool) : Word := if b then 1 else 0

/-- A word as a jump tests it (43_jump.md R85, R87): every word but 0 is true. -/
def isNonzero (c : Int) : Bool := decide (c ≠ 0)

/-- `a < b` on the integers two words hold (00_scope.md R7, 44_compare.md R89). -/
def wordLess (a b : Int) : Bool := decide (a < b)

/-- `a == b` on the integers two words hold (44_compare.md R90). -/
def wordEqual (a b : Int) : Bool := decide (a = b)

end Sys2Proof.Machine
end

