-- ==== Sys2Proof/Machine/Compare.lean ====
section
/-! DEFINITION. LessThan and Equals (44_compare.md). -/

namespace Sys2Proof.Machine

/-- LessThan, opcode 7 (44_compare.md R89): a signed comparison. -/
def execLessThan (m1 m2 m3 : Mode) (s : State) : Host.Outcome State Fault Refusal :=
  finish s (threeParam (fun a b => .ok (truthWord (wordLess a b))) m1 m2 m3 s)

/-- Equals, opcode 8 (44_compare.md R90). -/
def execEquals (m1 m2 m3 : Mode) (s : State) : Host.Outcome State Fault Refusal :=
  finish s (threeParam (fun a b => .ok (truthWord (wordEqual a b))) m1 m2 m3 s)

end Sys2Proof.Machine
end

