-- ==== Sys2Proof/Machine/Halt.lean ====
section
/-! DEFINITION. End (45_halt.md). -/

namespace Sys2Proof.Machine

/-- End, opcode 99 (45_halt.md R92, R93): HALTED, with `pc` at the End itself. The mode digits are
unused. -/
def execHalt (_m1 _m2 _m3 : Mode) (s : State) : Host.Outcome State Fault Refusal :=
  finish s (.ok { s with runState := .halted })

end Sys2Proof.Machine
end

