-- ==== Sys2Proof/Machine/Io.lean ====
section
/-! DEFINITION. Read and Write (42_io.md), each split at its wait state (70_reset_and_hazards.md
R115): the request phase is the instruction's meaning, the completion is a move of the host. -/

namespace Sys2Proof.Machine

/-- Read, opcode 3, request phase (42_io.md R76): the target is resolved and checked before the
request; `pc` is unchanged. `m2` and `m3` are unused. -/
def execRead (m1 _m2 _m3 : Mode) (s : State) : Host.Outcome State Fault Refusal :=
  finish s
    (match writeAddr s 1 m1 with
    | .error e => .error e
    | .ok t => .ok { s with ioLatch := t, runState := .waitIn })

/-- Write, opcode 4, request phase (42_io.md R79). `m2` and `m3` are unused. -/
def execWrite (m1 _m2 _m3 : Mode) (s : State) : Host.Outcome State Fault Refusal :=
  finish s
    (match readParam s 1 m1 with
    | .error e => .error e
    | .ok v => .ok { s with ioLatch := v, runState := .waitOut })

/-- Read completion (42_io.md R77) and malformed input (R78). The answer is consumed either way. -/
def completeRead (a : InAnswer) (s : State) : State :=
  match a with
  | .malformed => enterFault ⟨.parseError, 0⟩ { s with inputLog := s.inputLog ++ [a] }
  | .value v =>
    if FitsW s.params.W v then
      match memWrite { s with inputLog := s.inputLog ++ [a] } s.ioLatch v with
      | .ok t => { t with pc := s.pc + 2, runState := .running }
      | .error e => enterFault e { s with inputLog := s.inputLog ++ [a] }
    else enterFault ⟨.parseError, 0⟩ { s with inputLog := s.inputLog ++ [a] }

/-- Write completion (42_io.md R80). -/
def completeWrite (s : State) : State :=
  { s with outputLog := s.outputLog ++ [s.ioLatch], pc := s.pc + 2, runState := .running }

end Sys2Proof.Machine
end

