-- ==== Sys2Proof/Machine/Jump.lean ====
section
/-! DEFINITION. JumpIfTrue and JumpIfFalse (43_jump.md). -/

namespace Sys2Proof.Machine

/-- JumpIfTrue, opcode 5 (43_jump.md R85). `m3` is unused. -/
def execJumpIfTrue (m1 m2 _m3 : Mode) (s : State) : Host.Outcome State Fault Refusal :=
  finish s (conditionalJump isNonzero m1 m2 s)

/-- JumpIfFalse, opcode 6 (43_jump.md R87). `m3` is unused. -/
def execJumpIfFalse (m1 m2 _m3 : Mode) (s : State) : Host.Outcome State Fault Refusal :=
  finish s (conditionalJump (fun c => !isNonzero c) m1 m2 s)

end Sys2Proof.Machine
end

