-- ==== Sys2Proof/Machine/Dispatch.lean ====
section
/-! DEFINITION. One arm per instruction (40_execution_cycle.md R64). -/

namespace Sys2Proof.Machine

def exec (i : Instr) (s : State) : Host.Outcome State Fault Refusal :=
  match i with
  | .add m1 m2 m3 => Sys2Proof.Machine.execAdd m1 m2 m3 s
  | .multiply m1 m2 m3 => Sys2Proof.Machine.execMultiply m1 m2 m3 s
  | .read m1 m2 m3 => Sys2Proof.Machine.execRead m1 m2 m3 s
  | .write m1 m2 m3 => Sys2Proof.Machine.execWrite m1 m2 m3 s
  | .jumpIfTrue m1 m2 m3 => Sys2Proof.Machine.execJumpIfTrue m1 m2 m3 s
  | .jumpIfFalse m1 m2 m3 => Sys2Proof.Machine.execJumpIfFalse m1 m2 m3 s
  | .lessThan m1 m2 m3 => Sys2Proof.Machine.execLessThan m1 m2 m3 s
  | .equals m1 m2 m3 => Sys2Proof.Machine.execEquals m1 m2 m3 s
  | .halt m1 m2 m3 => Sys2Proof.Machine.execHalt m1 m2 m3 s

end Sys2Proof.Machine
end

