-- ==== Sys2Proof/Machine/HostTurn.lean ====
section
/-! DEFINITION. The host's moves, in the states where the core takes no instruction step
(40_execution_cycle.md R60).

"What the host may not do has no move in the model" (42_io.md R81): a next move the host may not
make in the present state is not made, and the core stays as it is. A host that has made the moves it
decided on decides its next one (`hostDecides`), and one that is silent never does, so that the core
waits forever (R69, R81, U7). -/

namespace Sys2Proof.Machine

/-- The moves the host may make in a state (42_io.md R81; 70_reset_and_hazards.md R111, R112). -/
def State.hostMay (s : State) (m : HostMove) : Bool :=
  match s.runState, m with
  | .waitIn, .answer _ => true
  | .waitIn, .idle => true
  | .waitOut, .outAck => true
  | .waitOut, .idle => true
  | .halted, .load image => imageLegal s.params image
  | .halted, .idle => true
  | .faulted, .load image => imageLegal s.params image
  | .faulted, .idle => true
  | _, _ => false

/-- The answers of a host that answers every request, after the next one is given: it goes round. -/
def HostRest.rotated (next : InAnswer) (later : List InAnswer) : HostRest :=
  match later with
  | [] => .answering next []
  | a :: rest => .answering a (rest ++ [next])

/-- The host's decision of its next move. It takes a step in which the core stays as it is, which is a
delay of the answer (42_io.md R81, 70_reset_and_hazards.md R115). -/
def hostDecides (s : State) : State :=
  match s.hostRest with
  | .silent => s
  | .answering next later =>
    match s.runState with
    | .waitIn => { s with host := [.answer next], hostRest := .rotated next later }
    | .waitOut => { s with host := [.outAck] }
    | .running => s
    | .halted => s
    | .faulted => s
  | .free =>
    { s with
      host := if s.hostMay (Config.freeHostMove s.hostIndex)
        then [Config.freeHostMove s.hostIndex] else []
      hostIndex := s.hostIndex + 1 }

/-- WAIT_IN: an answer to the input request, or one more step of waiting (42_io.md R77, R78). -/
def waitInTurn (s : State) : State :=
  match s.host with
  | .answer a :: rest => completeRead a { s with host := rest }
  | .idle :: rest => { s with host := rest }
  | .outAck :: _ => s
  | .load _ :: _ => s
  | [] => hostDecides s

/-- WAIT_OUT: the sink accepts, or one more step of waiting (42_io.md R80). -/
def waitOutTurn (s : State) : State :=
  match s.host with
  | .outAck :: rest => completeWrite { s with host := rest }
  | .idle :: rest => { s with host := rest }
  | .answer _ :: _ => s
  | .load _ :: _ => s
  | [] => hostDecides s

/-- HALTED or FAULTED: only a load of a legal image leaves them (70_reset_and_hazards.md R111,
R112; 60_exceptions.md R98). -/
def terminalTurn (s : State) : State :=
  match s.host with
  | .load image :: rest =>
    if imageLegal s.params image then loadStart image { s with host := rest } else s
  | .idle :: rest => { s with host := rest }
  | .answer _ :: _ => s
  | .outAck :: _ => s
  | [] => hostDecides s

end Sys2Proof.Machine
end

