-- ==== Sys2Proof/Machine/Step.lean ====
section
/-! DEFINITION. One step of the machine (40_execution_cycle.md R60, R67). -/

namespace Sys2Proof.Machine

/-- One step. RUNNING: fetch, decode and run one instruction, or take the fault that fetch or
decode raises. Waiting and terminal states: the host's move, if it has one. -/
def step (s : State) : Host.Outcome State Fault Refusal :=
  if s.legal then
    match s.runState with
    | .running =>
      match fetchDecode s with
      | .ok i => exec i s
      | .error e => .next (enterFault e s)
    | .waitIn => .next (waitInTurn s)
    | .waitOut => .next (waitOutTurn s)
    | .halted => .next (terminalTurn s)
    | .faulted => .next (terminalTurn s)
  else .fault .illegalParameters

/-- `s` with the instruction whose bits are `w`'s low `nbits` bits standing at `pc`, four words long,
and the core RUNNING; it stands for the host's load (notes/assumptions/4.md). -/
def State.withFetchWord (s : State) (nbits w : Nat) : State :=
  placeInstruction s (tableWords s.params.W (w % 2 ^ nbits))

end Sys2Proof.Machine
end

