-- ==== Sys2Proof/Safety.lean ====
section
/-! DEFINITION. What claims call a good state and a safe step. -/

namespace Sys2Proof.Machine

/-- The two terminal states (10_state.md R18). -/
abbrev State.Terminal (s : State) : Prop := s.runState = .halted ∨ s.runState = .faulted

/-- The two waiting states (10_state.md R18). -/
abbrev State.Waiting (s : State) : Prop := s.runState = .waitIn ∨ s.runState = .waitOut

/-- The fault record of a core that has not faulted (10_state.md R20). -/
abbrev State.NoFaultRecorded (s : State) : Prop :=
  s.faultCause = .none ∧ s.faultPc = 0 ∧ s.faultInfo = 0

/-- The record a fault leaves: a cause that is not NONE, the `pc` it stopped at, and the info R95
gives for a ParseError and for an Overflow. -/
abbrev State.FaultRecorded (s : State) : Prop :=
  s.faultCause ≠ .none ∧ s.faultPc = s.pc ∧
  (s.faultCause = .parseError → s.faultInfo = 0) ∧
  (s.faultCause = .overflow →
    (s.faultInfo = 1 ∨ s.faultInfo = 2) ∧ s.params.overflowPolicy = .fault)

/-- The invariant of the machine: legal parameters, canonical memory, every word a word of `W` bits,
`pc` a legal value (with the corner of notes/assumptions/13.md), a waiting instruction inside
memory, a range-checked latch in WAIT_IN, and a fault record that is 0 until the core faults. -/
abbrev State.Inv (s : State) : Prop :=
  s.legal = true ∧
  s.mem.wf = true ∧
  s.mem.fits s.params.W = true ∧
  s.pc ≤ halfRange s.params.W ∧
  FitsW s.params.W s.ioLatch ∧
  (∀ v ∈ s.outputLog, FitsW s.params.W v) ∧
  (s.Waiting → s.pc + 1 < s.mem.size) ∧
  (s.runState = .waitIn → InRange s s.ioLatch) ∧
  (s.runState ≠ .faulted → s.NoFaultRecorded) ∧
  (s.runState = .faulted → s.FaultRecorded)

/-- A step is safe when it answers a next state that is not FAULTED. -/
def SafeStep (s : State) : Prop := ∃ t, step s = .next t ∧ t.runState ≠ .faulted

/-- The state after `n` steps; a state that `step` stops in stays. -/
def State.after : Nat → State → State
  | 0, s => s
  | n + 1, s =>
    match step s with
    | .next t => State.after n t
    | .fault _ => s
    | .refused _ => s

/-- "The host answers every request", the premise a claim of termination must take (42_io.md R81): in
the run from `s`, no wait lasts for ever. -/
def State.HostAnswersEveryRequest (s : State) : Prop :=
  ∀ n, (s.after n).Waiting → ∃ m, n < m ∧ ¬ (s.after m).Waiting

/-- The moves the host may make in a state: an answer in WAIT_IN, `OutAck` in WAIT_OUT, a load of a
legal image in a terminal state, and in each of them nothing yet (42_io.md R81,
70_reset_and_hazards.md R111, R112). -/
abbrev State.MayMove (s : State) (m : HostMove) : Prop :=
  (s.runState = .waitIn ∧ (m = .idle ∨ ∃ a, m = .answer a)) ∨
  (s.runState = .waitOut ∧ (m = .idle ∨ m = .outAck)) ∨
  (s.Terminal ∧ (m = .idle ∨ ∃ image, m = .load image ∧ imageLegal s.params image = true))

/-- Two states that a program and the host's status interface cannot tell apart: they agree on
everything but the latch, which no rule reads outside a wait (10_state.md R21), and the model's own
counter of free latches. -/
structure SameButLatch (s t : State) : Prop where
  pc : s.pc = t.pc
  mem : s.mem = t.mem
  runState : s.runState = t.runState
  faultCause : s.faultCause = t.faultCause
  faultPc : s.faultPc = t.faultPc
  faultInfo : s.faultInfo = t.faultInfo
  inputLog : s.inputLog = t.inputLog
  outputLog : s.outputLog = t.outputLog
  params : s.params = t.params
  host : s.host = t.host
  hostRest : s.hostRest = t.hostRest
  hostIndex : s.hostIndex = t.hostIndex
  latch : s.Waiting → s.ioLatch = t.ioLatch

/-- The digits of a word are those of an opcode and three modes (30_encoding.md R44). -/
abbrev HasFields (w : Word) (op : Nat) (m1 m2 m3 : Mode) : Prop :=
  w.natAbs ≤ 99999 ∧ w.natAbs % 100 = op ∧
  w.natAbs / 100 % 10 = m1.digit ∧ w.natAbs / 1000 % 10 = m2.digit ∧
  w.natAbs / 10000 % 10 = m3.digit

/-- The words that are no instruction (30_encoding.md R56, items 1 to 4). -/
abbrev IllegalWord (p : Params) (w : Word) : Prop :=
  99999 < w.natAbs ∨
  w.natAbs % 100 ∉ [1, 2, 3, 4, 5, 6, 7, 8, 99] ∨
  (1 < w.natAbs / 100 % 10 ∨ 1 < w.natAbs / 1000 % 10 ∨ 1 < w.natAbs / 10000 % 10) ∨
  (p.strictWriteMode = true ∧
    ((w.natAbs % 100 ∈ [1, 2, 7, 8] ∧ w.natAbs / 10000 % 10 = 1) ∨
      (w.natAbs % 100 = 3 ∧ w.natAbs / 100 % 10 = 1)))

/-- The four instructions of format F3 (30_encoding.md R43). -/
def threeParamInstrs : List (Mode → Mode → Mode → Instr) :=
  [.add, .multiply, .lessThan, .equals]

/-- The two jumps, format F2 (30_encoding.md R43). -/
def jumpInstrs : List (Mode → Mode → Mode → Instr) := [.jumpIfTrue, .jumpIfFalse]

end Sys2Proof.Machine
end

