-- ==== Sys2Proof/Certificates/Slice0/Obligations.lean ====
section
/-! DEFINITION. The statements for the provers. Each docstring names the rule of spec/ it comes from;
a statement that rests on a choice of the model says so and names the log entry. -/

open Sys2Proof Sys2Proof.Machine

/-! ### Encoding (30_encoding.md) -/

/-- R44, R46, R47, R49, R51: which words decode to which instruction, opcode by opcode, digit by
digit; under `strict_write_mode` a write target in Immediate mode does not decode. -/
def Obligations.DecodeReadsTheDecimalFields : Prop :=
  ∀ (p : Params) (w : Word) (m1 m2 m3 : Mode),
    (decode p w = .ok (.add m1 m2 m3) ↔
      HasFields w 1 m1 m2 m3 ∧ ¬(p.strictWriteMode = true ∧ m3 = .immediate)) ∧
    (decode p w = .ok (.multiply m1 m2 m3) ↔
      HasFields w 2 m1 m2 m3 ∧ ¬(p.strictWriteMode = true ∧ m3 = .immediate)) ∧
    (decode p w = .ok (.read m1 m2 m3) ↔
      HasFields w 3 m1 m2 m3 ∧ ¬(p.strictWriteMode = true ∧ m1 = .immediate)) ∧
    (decode p w = .ok (.write m1 m2 m3) ↔ HasFields w 4 m1 m2 m3) ∧
    (decode p w = .ok (.jumpIfTrue m1 m2 m3) ↔ HasFields w 5 m1 m2 m3) ∧
    (decode p w = .ok (.jumpIfFalse m1 m2 m3) ↔ HasFields w 6 m1 m2 m3) ∧
    (decode p w = .ok (.lessThan m1 m2 m3) ↔
      HasFields w 7 m1 m2 m3 ∧ ¬(p.strictWriteMode = true ∧ m3 = .immediate)) ∧
    (decode p w = .ok (.equals m1 m2 m3) ↔
      HasFields w 8 m1 m2 m3 ∧ ¬(p.strictWriteMode = true ∧ m3 = .immediate)) ∧
    (decode p w = .ok (.halt m1 m2 m3) ↔ HasFields w 99 m1 m2 m3)

/-- R56: a running core that fetches an illegal word takes DecodeError with the raw word, and no
other word makes it take DecodeError at decode. -/
def Obligations.IllegalWordsRaiseDecodeError : Prop :=
  ∀ (s : State) (w : Word), s.legal = true → s.runState = .running →
    memRead s (s.pc : Int) = .ok w →
    (IllegalWord s.params w →
      step s = .next { s with
        runState := .faulted, faultCause := .decodeError, faultPc := s.pc, faultInfo := w }) ∧
    (¬ IllegalWord s.params w → ∃ i, decode s.params w = .ok i ∧ step s = exec i s)

/-- R57 and R51: decoding the encoding of a well-formed instruction gives the instruction back, every
mode digit included. -/
def Obligations.DecodeOfEncode : Prop :=
  ∀ (p : Params) (i : Instr), WellFormed p i = true → decode p (encode i) = .ok i

/-- R45: the sign of the word is dropped, so a negative word decodes as its absolute value. -/
def Obligations.DecodeDropsTheSign : Prop :=
  (∀ (p : Params) (w : Word), decode p w = decode p (w.natAbs : Int)) ∧
    decode Params.default (-1002) = .ok (.multiply .position .immediate .position)

/-- Words the spec gives an instruction. 1, 1102, 103 with and without `strict_write_mode`, 11104,
1108, -99, 299, 20004, 98 and 100001 are vectors of 95_test_vectors.md section 2.1; 1105 and 1107 are
the first words of vectors of its sections 2.4 and 2.5, and 1006 of a line of its program P2. All are
read by R44 and R47 (30_encoding.md sections 1 and 2). -/
def Obligations.SpecDecoderVectors : Prop :=
  decode Params.default 1 = .ok (.add .position .position .position) ∧
  decode Params.default 1102 = .ok (.multiply .immediate .immediate .position) ∧
  decode Params.default 103 = .ok (.read .immediate .position .position) ∧
  decode { Params.default with strictWriteMode := true } 103 = .error .immediateWriteTarget ∧
  decode Params.default 11104 = .ok (.write .immediate .immediate .immediate) ∧
  decode Params.default 1105 = .ok (.jumpIfTrue .immediate .immediate .position) ∧
  decode Params.default 1006 = .ok (.jumpIfFalse .position .immediate .position) ∧
  decode Params.default 1107 = .ok (.lessThan .immediate .immediate .position) ∧
  decode Params.default 1108 = .ok (.equals .immediate .immediate .position) ∧
  decode Params.default (-99) = .ok (.halt .position .position .position) ∧
  decode Params.default 299 = .error .badModeDigit ∧
  decode Params.default 20004 = .error .badModeDigit ∧
  decode Params.default 98 = .error .unknownOpcode ∧
  decode Params.default 100001 = .error .tooManyDigits

/-- R57, with R50 and R54: an instruction does what its canonical form does, and the canonical form
is accepted under every setting of `strict_write_mode`. -/
def Obligations.NonCanonicalActsAsCanonical : Prop :=
  ∀ (i : Instr) (s : State) (p : Params),
    exec i s = exec i.canonical s ∧ WellFormed p i.canonical = true

/-- The opcode table's numbering (the model's reading of it, notes/assumptions/19.md): the word an
instruction encodes to, given as any number of bits that holds it, is that
instruction. -/
def Obligations.TableWordReadsBack : Prop :=
  ∀ (i : Instr) (nbits : Nat), WellFormed Params.default i = true → 17 ≤ nbits →
    decodeTableWord nbits (encode i).toNat = some i

/-! ### Numbers (00_scope.md R7) -/

/-- R7: `wrap_W(v)` is the unique word congruent to `v` modulo `2^W`. -/
def Obligations.WrapIsTheCongruentWord : Prop :=
  ∀ (W : Nat) (v : Int), 18 ≤ W →
    FitsW W (wrapW W v) ∧ ((2 ^ W : Nat) : Int) ∣ wrapW W v - v ∧
      ∀ r : Int, FitsW W r → ((2 ^ W : Nat) : Int) ∣ r - v → r = wrapW W v

/-! ### Memory and operands -/

/-- R33, R34: the two access primitives and their bounds check. -/
def Obligations.MemoryPrimitives : Prop :=
  ∀ (s : State) (a : Int) (v : Word),
    ((a < 0 ∨ a ≥ (s.mem.size : Int)) →
      memRead s a = .error ⟨.addressError, a⟩ ∧ memWrite s a v = .error ⟨.addressError, a⟩) ∧
    (¬(a < 0 ∨ a ≥ (s.mem.size : Int)) →
      memRead s a = .ok (s.mem.get a.toNat) ∧
      memWrite s a v = .ok { s with mem := s.mem.set a.toNat v })

/-- R31, R36: a memory write changes only the word it names, and a later read of it gives the word
written. The premise is the canonical form (DESIGN CHOICE, notes/assumptions/7.md), which every step
keeps (StepKeepsTheInvariant). -/
def Obligations.WriteChangesOnlyItsWord : Prop :=
  ∀ (s t : State) (a : Int) (v : Word), s.mem.wf = true → memWrite s a v = .ok t →
    memRead t a = .ok v ∧ (∀ b : Int, b ≠ a → memRead t b = memRead s b) ∧
    t.mem.size = s.mem.size ∧ t = { s with mem := t.mem }

/-- R53: a read operand. The parameter word itself, or the word it addresses; the fault of the
parameter word comes first. -/
def Obligations.ReadOperandForms : Prop :=
  ∀ (s : State) (i : Nat),
    (∀ e m, memRead s ((s.pc + i : Nat) : Int) = .error e → readParam s i m = .error e) ∧
    (∀ p, memRead s ((s.pc + i : Nat) : Int) = .ok p →
      readParam s i .immediate = .ok p ∧ readParam s i .position = memRead s p)

/-- R54, R55: a write target is the parameter word as an address, whatever its mode, and its range is
checked when it is resolved. -/
def Obligations.WriteTargetForm : Prop :=
  ∀ (s : State) (i : Nat) (m : Mode),
    (∀ e, memRead s ((s.pc + i : Nat) : Int) = .error e → writeAddr s i m = .error e) ∧
    (∀ t : Int, memRead s ((s.pc + i : Nat) : Int) = .ok t →
      ((t < 0 ∨ t ≥ (s.mem.size : Int)) → writeAddr s i m = .error ⟨.addressError, t⟩) ∧
      (¬(t < 0 ∨ t ≥ (s.mem.size : Int)) → writeAddr s i m = .ok t))

/-! ### Arithmetic (41_arithmetic.md) -/

/-- R71: the ALU law. -/
def Obligations.ArithmeticLaw : Prop :=
  ∀ (p : Params) (a b : Int),
    (FitsW p.W (a + b) → arith p 1 a b = .ok (a + b)) ∧
    (FitsW p.W (a * b) → arith p 2 a b = .ok (a * b)) ∧
    (¬ FitsW p.W (a + b) → p.overflowPolicy = .fault → arith p 1 a b = .error ⟨.overflow, 1⟩) ∧
    (¬ FitsW p.W (a * b) → p.overflowPolicy = .fault → arith p 2 a b = .error ⟨.overflow, 2⟩) ∧
    (¬ FitsW p.W (a + b) → p.overflowPolicy = .wrap → arith p 1 a b = .ok (wrapW p.W (a + b))) ∧
    (¬ FitsW p.W (a * b) → p.overflowPolicy = .wrap → arith p 2 a b = .ok (wrapW p.W (a * b)))

/-- R72, R66: Add with readable operands, a target in range and a sum that fits stores the sum and
advances by 4, whatever the target aliases; nothing else changes. -/
def Obligations.AddStoresTheSum : Prop :=
  ∀ (s : State) (m1 m2 m3 : Mode) (a b t : Int),
    readParam s 1 m1 = .ok a → readParam s 2 m2 = .ok b → writeAddr s 3 m3 = .ok t →
    FitsW s.params.W (a + b) →
    exec (.add m1 m2 m3) s =
      .next { s with mem := s.mem.set t.toNat (a + b), pc := s.pc + 4 }

/-- R73, R66: Multiply, the same with the product. -/
def Obligations.MultiplyStoresTheProduct : Prop :=
  ∀ (s : State) (m1 m2 m3 : Mode) (a b t : Int),
    readParam s 1 m1 = .ok a → readParam s 2 m2 = .ok b → writeAddr s 3 m3 = .ok t →
    FitsW s.params.W (a * b) →
    exec (.multiply m1 m2 m3) s =
      .next { s with mem := s.mem.set t.toNat (a * b), pc := s.pc + 4 }

/-- R71 to R73 with `overflow_policy = fault`: a result that does not fit takes Overflow with the
opcode as info; nothing is stored. -/
def Obligations.OverflowFaultsUnderFaultPolicy : Prop :=
  ∀ (s : State) (m1 m2 m3 : Mode) (a b t : Int),
    readParam s 1 m1 = .ok a → readParam s 2 m2 = .ok b → writeAddr s 3 m3 = .ok t →
    s.params.overflowPolicy = .fault →
    (¬ FitsW s.params.W (a + b) →
      exec (.add m1 m2 m3) s = .next { s with
        runState := .faulted, faultCause := .overflow, faultPc := s.pc, faultInfo := 1 }) ∧
    (¬ FitsW s.params.W (a * b) →
      exec (.multiply m1 m2 m3) s = .next { s with
        runState := .faulted, faultCause := .overflow, faultPc := s.pc, faultInfo := 2 })

/-- R71 to R73 with `overflow_policy = wrap`: the wrapped result is stored. -/
def Obligations.OverflowWrapsUnderWrapPolicy : Prop :=
  ∀ (s : State) (m1 m2 m3 : Mode) (a b t : Int),
    readParam s 1 m1 = .ok a → readParam s 2 m2 = .ok b → writeAddr s 3 m3 = .ok t →
    s.params.overflowPolicy = .wrap →
    (¬ FitsW s.params.W (a + b) →
      exec (.add m1 m2 m3) s =
        .next { s with mem := s.mem.set t.toNat (wrapW s.params.W (a + b)), pc := s.pc + 4 }) ∧
    (¬ FitsW s.params.W (a * b) →
      exec (.multiply m1 m2 m3) s =
        .next { s with mem := s.mem.set t.toNat (wrapW s.params.W (a * b)), pc := s.pc + 4 })

/-! ### Compares (44_compare.md) -/

/-- R89, R91: LessThan stores exactly 1 or exactly 0 and advances by 4. -/
def Obligations.LessThanStoresOneOrZero : Prop :=
  ∀ (s : State) (m1 m2 m3 : Mode) (a b t : Int),
    readParam s 1 m1 = .ok a → readParam s 2 m2 = .ok b → writeAddr s 3 m3 = .ok t →
    exec (.lessThan m1 m2 m3) s =
      .next { s with mem := s.mem.set t.toNat (if a < b then 1 else 0), pc := s.pc + 4 }

/-- R90, R91: Equals stores exactly 1 or exactly 0 and advances by 4. -/
def Obligations.EqualsStoresOneOrZero : Prop :=
  ∀ (s : State) (m1 m2 m3 : Mode) (a b t : Int),
    readParam s 1 m1 = .ok a → readParam s 2 m2 = .ok b → writeAddr s 3 m3 = .ok t →
    exec (.equals m1 m2 m3) s =
      .next { s with mem := s.mem.set t.toNat (if a = b then 1 else 0), pc := s.pc + 4 }

/-- R89, R90 and R99: a compare never takes Overflow; when it faults, it is an AddressError. -/
def Obligations.ComparesFaultOnlyOnAddresses : Prop :=
  ∀ (s t : State) (m1 m2 m3 : Mode), s.runState = .running →
    (exec (.lessThan m1 m2 m3) s = .next t ∨ exec (.equals m1 m2 m3) s = .next t) →
    t.runState = .faulted →
    t.faultCause = .addressError ∧ (t.faultInfo < 0 ∨ t.faultInfo ≥ (s.mem.size : Int))

/-! ### Frames -/

/-- R24, R31, R65, R97: Add, Multiply, LessThan and Equals. If the target resolves to `a`, every
other word of memory reads as before; if it does not resolve, or the instruction faults, every word
does. The status fields the host sees change only by a fault, and no I/O state, no parameter and no
move of the host changes. -/
def Obligations.ThreeParameterFrame : Prop :=
  ∀ mk ∈ threeParamInstrs, ∀ (m1 m2 m3 : Mode) (s t : State),
    s.runState = .running → exec (mk m1 m2 m3) s = .next t →
    (∀ a b : Int, writeAddr s 3 m3 = .ok a → b ≠ a → memRead t b = memRead s b) ∧
    ((∀ a : Int, writeAddr s 3 m3 ≠ .ok a) → ∀ b : Int, memRead t b = memRead s b) ∧
    (t.runState = .faulted → (∀ b : Int, memRead t b = memRead s b) ∧ t.pc = s.pc) ∧
    (t.runState ≠ .faulted →
      t.runState = s.runState ∧ t.faultCause = s.faultCause ∧ t.faultPc = s.faultPc ∧
      t.faultInfo = s.faultInfo) ∧
    t.mem.size = s.mem.size ∧ t.ioLatch = s.ioLatch ∧ t.inputLog = s.inputLog ∧
    t.outputLog = s.outputLog ∧ t.params = s.params ∧ t.host = s.host ∧ t.hostRest = s.hostRest ∧
    t.hostIndex = s.hostIndex ∧ t.freeIndex = s.freeIndex

/-- R24, R65, R97: Read (request), Write (request), the jumps and End store nothing. The latch
changes only by a Read or a Write, `pc` only by a jump, and the fault record only by a fault. -/
def Obligations.NonStoringFrame : Prop :=
  ∀ (m1 m2 m3 : Mode) (s t : State) (i : Instr),
    i ∈ [Instr.read m1 m2 m3, .write m1 m2 m3, .jumpIfTrue m1 m2 m3, .jumpIfFalse m1 m2 m3,
      .halt m1 m2 m3] →
    s.runState = .running → exec i s = .next t →
    (∀ b : Int, memRead t b = memRead s b) ∧ t.mem = s.mem ∧
    (t.runState ≠ .faulted →
      t.faultCause = s.faultCause ∧ t.faultPc = s.faultPc ∧ t.faultInfo = s.faultInfo) ∧
    (t.runState = .faulted → t.pc = s.pc ∧ t.ioLatch = s.ioLatch) ∧
    (i ∉ [Instr.read m1 m2 m3, .write m1 m2 m3] → t.ioLatch = s.ioLatch) ∧
    (i ∉ [Instr.jumpIfTrue m1 m2 m3, .jumpIfFalse m1 m2 m3] → t.pc = s.pc) ∧
    t.inputLog = s.inputLog ∧ t.outputLog = s.outputLog ∧ t.params = s.params ∧
    t.host = s.host ∧ t.hostRest = s.hostRest ∧ t.hostIndex = s.hostIndex ∧
    t.freeIndex = s.freeIndex

/-! ### Jumps (43_jump.md) -/

/-- R85: JumpIfTrue, taken on every word but 0, to an absolute target that is not negative. -/
def Obligations.JumpIfTrueRule : Prop :=
  ∀ (s : State) (m1 m2 m3 : Mode) (c d : Int),
    readParam s 1 m1 = .ok c → readParam s 2 m2 = .ok d →
    (c ≠ 0 → 0 ≤ d → exec (.jumpIfTrue m1 m2 m3) s = .next { s with pc := d.toNat }) ∧
    (c = 0 → exec (.jumpIfTrue m1 m2 m3) s = .next { s with pc := s.pc + 3 })

/-- R87: JumpIfFalse, taken on 0 only. -/
def Obligations.JumpIfFalseRule : Prop :=
  ∀ (s : State) (m1 m2 m3 : Mode) (c d : Int),
    readParam s 1 m1 = .ok c → readParam s 2 m2 = .ok d →
    (c = 0 → 0 ≤ d → exec (.jumpIfFalse m1 m2 m3) s = .next { s with pc := d.toNat }) ∧
    (c ≠ 0 → exec (.jumpIfFalse m1 m2 m3) s = .next { s with pc := s.pc + 3 })

/-- R86: a taken jump with a negative target faults at the jump; one with a target at or past `N` is
taken and the next fetch faults. Only `fault_pc` differs. -/
def Obligations.TakenJumpOutsideMemory : Prop :=
  ∀ (s : State) (m1 m2 m3 : Mode) (c d : Int) (i : Instr),
    s.legal = true → s.runState = .running →
    readParam s 1 m1 = .ok c → readParam s 2 m2 = .ok d →
    ((c ≠ 0 ∧ i = .jumpIfTrue m1 m2 m3) ∨ (c = 0 ∧ i = .jumpIfFalse m1 m2 m3)) →
    (d < 0 →
      exec i s = .next { s with
        runState := .faulted, faultCause := .addressError, faultPc := s.pc, faultInfo := d }) ∧
    (d ≥ (s.mem.size : Int) →
      exec i s = .next { s with pc := d.toNat } ∧
      step { s with pc := d.toNat } = .next { s with
        pc := d.toNat, runState := .faulted, faultCause := .addressError,
        faultPc := d.toNat, faultInfo := d })

/-! ### Input and output (42_io.md) -/

/-- R76: Read latches its checked target and waits; `pc` and `M` are unchanged, no input is taken. -/
def Obligations.ReadRequestsInput : Prop :=
  ∀ (s : State) (m1 m2 m3 : Mode) (t : Int), writeAddr s 1 m1 = .ok t →
    exec (.read m1 m2 m3) s = .next { s with ioLatch := t, runState := .waitIn } ∧
    State.request { s with ioLatch := t, runState := .waitIn } = some .inReq

/-- R77: in WAIT_IN, an answer that fits is stored at the latched address, `pc` advances by 2, and the
core runs again. The range of the latch is the invariant's, established by R76. Two clauses are the
model's: the answer is appended to the input history (DEDUCED from R82, notes/assumptions/16.md), and
it is taken from the host's script (DESIGN CHOICE, notes/assumptions/8.md). -/
def Obligations.ReadCompletesWithTheValue : Prop :=
  ∀ (s : State) (v : Int) (rest : List HostMove),
    s.legal = true → s.runState = .waitIn → s.host = .answer (.value v) :: rest →
    FitsW s.params.W v → InRange s s.ioLatch →
    step s = .next { s with
      mem := s.mem.set s.ioLatch.toNat v
      pc := s.pc + 2
      runState := .running
      inputLog := s.inputLog ++ [.value v]
      host := rest }

/-- R78: a malformed answer, or a value that does not fit, takes ParseError, cause code 1; the answer
is consumed, `M` and `pc` are not changed. Two clauses are the model's: the consumed answer stands in
the input history, the malformed one too (DEDUCED from R78 and R82, notes/assumptions/16.md), and it
is taken from the host's script (DESIGN CHOICE, notes/assumptions/8.md). -/
def Obligations.MalformedInputTakesParseError : Prop :=
  ∀ (s : State) (a : InAnswer) (rest : List HostMove),
    s.legal = true → s.runState = .waitIn → s.host = .answer a :: rest →
    (a = .malformed ∨ ∃ v, a = .value v ∧ ¬ FitsW s.params.W v) →
    step s = .next { s with
      runState := .faulted
      faultCause := .parseError
      faultPc := s.pc
      faultInfo := 0
      inputLog := s.inputLog ++ [a]
      host := rest } ∧
    FaultCause.parseError.code = 1

/-- R79: Write latches its operand and waits; `pc` and `M` are unchanged, nothing is output yet. -/
def Obligations.WriteRequestsOutput : Prop :=
  ∀ (s : State) (m1 m2 m3 : Mode) (v : Int), readParam s 1 m1 = .ok v →
    exec (.write m1 m2 m3) s = .next { s with ioLatch := v, runState := .waitOut } ∧
    State.request { s with ioLatch := v, runState := .waitOut } = some (.outReq v)

/-- R80: in WAIT_OUT, `OutAck` appends the latched word to the output sequence, advances `pc` by 2 and
lets the core run; without it the core goes on waiting and nothing but the host's own script
changes, so the host cannot refuse an output. The script and the way `OutAck` is taken from it are the
model's (DESIGN CHOICE, notes/assumptions/8.md), and so is it that a next move the host may not make
now is not made, which the second clause covers (DEDUCED from R81, notes/assumptions/9.md). -/
def Obligations.WriteCompletesOnOutAck : Prop :=
  ∀ (s : State), s.legal = true → s.runState = .waitOut →
    (∀ rest, s.host = .outAck :: rest →
      step s = .next { s with
        outputLog := s.outputLog ++ [s.ioLatch]
        pc := s.pc + 2
        runState := .running
        host := rest }) ∧
    ((∀ rest, s.host ≠ .outAck :: rest) →
      ∃ t, step s = .next t ∧
        t = { s with host := t.host, hostRest := t.hostRest, hostIndex := t.hostIndex })

/-- R60, R69, R81: a waiting core with no answer stays exactly as it is, its request outstanding. How the
host's moves are held is the model's (notes/assumptions/8.md, 9.md): a silent host makes no move, a
next move it may not make now is not made, and deciding the next move changes the host's own fields
only. -/
def Obligations.UnansweredRequestStaysOutstanding : Prop :=
  ∀ (s : State), s.legal = true →
    (s.runState = .waitIn → (∀ a rest, s.host ≠ .answer a :: rest) →
      (∀ rest, s.host ≠ .idle :: rest) → (s.host = [] → s.hostRest = .silent) →
      step s = .next s) ∧
    (s.runState = .waitOut → (∀ rest, s.host ≠ .outAck :: rest) →
      (∀ rest, s.host ≠ .idle :: rest) → (s.host = [] → s.hostRest = .silent) →
      step s = .next s) ∧
    (∀ rest, s.Waiting → s.host = .idle :: rest →
      step s = .next { s with host := rest } ∧
      State.request { s with host := rest } = s.request) ∧
    (s.Waiting → s.host = [] →
      ∃ t, step s = .next t ∧
        t = { s with host := t.host, hostRest := t.hostRest, hostIndex := t.hostIndex } ∧
        t.request = s.request)

/-- R81 and R69: a host that never answers leaves a waiting core waiting for ever, its request
outstanding. The silent host is the model's form of it (DESIGN CHOICE, notes/assumptions/8.md). -/
def Obligations.SilentHostLeavesTheCoreWaiting : Prop :=
  ∀ (s : State), s.legal = true → s.Waiting → s.host = [] → s.hostRest = .silent →
    ∀ n, s.after n = s

/-- R81: a host that answers every request. From a waiting core, its next move is the answer the
request asks for, an input answer in WAIT_IN and `OutAck` in WAIT_OUT, and the core completes with it
(R77, R78, R80) while the host goes on to its next answer. How such a host is held is the model's
(DESIGN CHOICE, notes/assumptions/8.md). -/
def Obligations.AnsweringHostAnswersTheRequest : Prop :=
  ∀ (s : State) (next : InAnswer) (later : List InAnswer),
    s.legal = true → s.host = [] → s.hostRest = .answering next later →
    (s.runState = .waitIn →
      s.after 2 = completeRead next { s with hostRest := .rotated next later }) ∧
    (s.runState = .waitOut → s.after 2 = completeWrite s)

/-- R81: the premise of a claim of termination, "the host answers every request", holds of every run
with a host that answers without end, also of a run that reads or writes for ever. How such a host is
held is the model's (DESIGN CHOICE, notes/assumptions/8.md). -/
def Obligations.AnsweringHostAnswersEveryRequest : Prop :=
  ∀ (s : State) (next : InAnswer) (later : List InAnswer),
    s.legal = true → s.host = [] → s.hostRest = .answering next later → s.HostAnswersEveryRequest

/-- R70, R81, R111: a host nothing is assumed about. Its next move is a free value, which it makes only
where it may: an answer in WAIT_IN, `OutAck` in WAIT_OUT, a load of a legal image in HALTED or FAULTED,
or nothing yet. The free move is the model's form of the host's choice (DESIGN CHOICE,
notes/assumptions/23.md), and it holds of every value of it. -/
def Obligations.FreeHostMakesOnlyMovesItMay : Prop :=
  ∀ (s : State) (m : HostMove),
    s.legal = true → s.host = [] → s.hostRest = .free → m = Config.freeHostMove s.hostIndex →
    (s.MayMove m → step s = .next { s with host := [m], hostIndex := s.hostIndex + 1 }) ∧
    (s.runState ≠ .running → ¬ s.MayMove m →
      step s = .next { s with hostIndex := s.hostIndex + 1 })

/-- R60, R82, R109: an instruction step takes no move of the host and adds nothing to the I/O history;
the history grows by one answer in WAIT_IN or by the latched word in WAIT_OUT. From a terminal state
either the core stays in it with its history, or the host's move was a load, the core is RUNNING and
the history is empty. The histories read R110 and R82 (DEDUCED, notes/assumptions/16.md); the host's
script is the model's (DESIGN CHOICE, notes/assumptions/8.md). -/
def Obligations.HistoryGrowsOnlyByCompletions : Prop :=
  ∀ (s t : State), step s = .next t →
    (s.runState = .running →
      t.host = s.host ∧ t.hostRest = s.hostRest ∧ t.hostIndex = s.hostIndex ∧
      t.inputLog = s.inputLog ∧ t.outputLog = s.outputLog) ∧
    (s.runState = .waitIn →
      t.outputLog = s.outputLog ∧
      (t.inputLog = s.inputLog ∨
        ∃ a, s.host.head? = some (.answer a) ∧ t.inputLog = s.inputLog ++ [a])) ∧
    (s.runState = .waitOut →
      t.inputLog = s.inputLog ∧
      (t.outputLog = s.outputLog ∨
        s.host.head? = some .outAck ∧ t.outputLog = s.outputLog ++ [s.ioLatch])) ∧
    (s.Terminal →
      (t.runState = s.runState ∧ t.inputLog = s.inputLog ∧ t.outputLog = s.outputLog) ∨
      ((∃ image, s.host.head? = some (.load image)) ∧
        t.runState = .running ∧ t.inputLog = [] ∧ t.outputLog = []))

/-- R75: at most one request is outstanding; which one follows from the execution state, and an output
request carries the latched word. -/
def Obligations.OutstandingRequest : Prop :=
  ∀ (s : State),
    (s.request = some .inReq ↔ s.runState = .waitIn) ∧
    (∀ v, s.request = some (.outReq v) ↔ s.runState = .waitOut ∧ v = s.ioLatch) ∧
    (s.request = none ↔ ¬ s.Waiting)

/-! ### End (45_halt.md) -/

/-- R92, R93: End enters HALTED and changes nothing else; `pc` stays at the End. -/
def Obligations.EndHalts : Prop :=
  ∀ (s : State) (m1 m2 m3 : Mode),
    exec (.halt m1 m2 m3) s = .next { s with runState := .halted }

/-! ### Faults (60_exceptions.md) -/

/-- R96: fault entry sets the four fields and nothing else. -/
def Obligations.FaultEntrySetsTheRecord : Prop :=
  ∀ (e : Raise) (s : State),
    enterFault e s =
      { s with runState := .faulted, faultCause := e.cause, faultPc := s.pc, faultInfo := e.info }

/-- R97: a fault is precise. A running core that takes a fault changes nothing but its execution
state and the fault record, and the record names the faulting instruction. -/
def Obligations.FaultsArePrecise : Prop :=
  ∀ (s t : State), step s = .next t → s.runState = .running → t.runState = .faulted →
    t.faultCause ≠ .none ∧
    t = { s with
      runState := .faulted, faultCause := t.faultCause, faultPc := s.pc, faultInfo := t.faultInfo }

/-- R95: the causes a running core can take, with their codes, conditions and infos. An Overflow is
raised by the Add or the Multiply at `pc`, under the policy `fault`, on operands whose exact sum or
product does not fit. -/
def Obligations.FaultCausesAndInfos : Prop :=
  ∀ (s t : State), step s = .next t → s.runState = .running → t.runState = .faulted →
    (t.faultCause.code = 2 ∧ memRead s (s.pc : Int) = .ok t.faultInfo ∧
      IllegalWord s.params t.faultInfo) ∨
    (t.faultCause.code = 3 ∧ (t.faultInfo < 0 ∨ t.faultInfo ≥ (s.mem.size : Int))) ∨
    (t.faultCause.code = 4 ∧ s.params.overflowPolicy = .fault ∧
      ∃ (w : Word) (m1 m2 m3 : Mode) (a b : Int),
        memRead s (s.pc : Int) = .ok w ∧
        readParam s 1 m1 = .ok a ∧ readParam s 2 m2 = .ok b ∧
        ((decode s.params w = .ok (.add m1 m2 m3) ∧ t.faultInfo = 1 ∧
            ¬ FitsW s.params.W (a + b)) ∨
          (decode s.params w = .ok (.multiply m1 m2 m3) ∧ t.faultInfo = 2 ∧
            ¬ FitsW s.params.W (a * b))))

/-- R63, R99: parameters are resolved in order, all of them before the operation, and the first fault
is the one reported; this includes both parameters of a jump that is not taken. -/
def Obligations.FirstUnresolvedParameterFaults : Prop :=
  ∀ (m1 m2 m3 : Mode) (s : State),
    (∀ mk ∈ threeParamInstrs ++ jumpInstrs ++ [Instr.write], ∀ e,
      readParam s 1 m1 = .error e → exec (mk m1 m2 m3) s = .next (enterFault e s)) ∧
    (∀ mk ∈ threeParamInstrs ++ jumpInstrs, ∀ a e,
      readParam s 1 m1 = .ok a → readParam s 2 m2 = .error e →
      exec (mk m1 m2 m3) s = .next (enterFault e s)) ∧
    (∀ mk ∈ threeParamInstrs, ∀ a b e,
      readParam s 1 m1 = .ok a → readParam s 2 m2 = .ok b → writeAddr s 3 m3 = .error e →
      exec (mk m1 m2 m3) s = .next (enterFault e s)) ∧
    (∀ e, writeAddr s 1 m1 = .error e →
      exec (.read m1 m2 m3) s = .next (enterFault e s))

/-! ### The cycle and `pc` (40_execution_cycle.md) -/

/-- R60, R62, R67: a step of a running core whose fetched word decodes is that instruction's
meaning. -/
def Obligations.StepRunsTheDecodedInstruction : Prop :=
  ∀ (s : State) (w : Word) (i : Instr),
    s.legal = true → s.runState = .running →
    memRead s (s.pc : Int) = .ok w → decode s.params w = .ok i → step s = exec i s

/-- R61: the fetch reads the word at `pc`; at or past `N` it takes AddressError(pc). -/
def Obligations.FetchReadsTheWordAtPc : Prop :=
  ∀ (s : State), s.legal = true → s.runState = .running →
    (s.pc < s.mem.size →
      memRead s (s.pc : Int) = .ok (s.mem.get s.pc) ∧
      ∀ i, decode s.params (s.mem.get s.pc) = .ok i → step s = exec i s) ∧
    (s.pc ≥ s.mem.size →
      step s = .next { s with
        runState := .faulted, faultCause := .addressError, faultPc := s.pc, faultInfo := s.pc })

/-- R66: what each opcode does to `pc` when it does not fault: the fixed advance from the `pc` it
started at, a taken jump's target, or nothing. Read and Write advance at their completion. -/
def Obligations.ProgramCounterUpdate : Prop :=
  (∀ mk ∈ threeParamInstrs, ∀ (m1 m2 m3 : Mode) (s t : State),
    exec (mk m1 m2 m3) s = .next t → t.runState ≠ .faulted → t.pc = s.pc + 4) ∧
  (∀ mk ∈ jumpInstrs, ∀ (m1 m2 m3 : Mode) (s t : State),
    exec (mk m1 m2 m3) s = .next t → t.runState ≠ .faulted →
    ∃ c d, readParam s 1 m1 = .ok c ∧ readParam s 2 m2 = .ok d ∧
      if (mk m1 m2 m3 = .jumpIfTrue m1 m2 m3 ∧ c ≠ 0) ∨
          (mk m1 m2 m3 = .jumpIfFalse m1 m2 m3 ∧ c = 0)
      then (t.pc : Int) = d else t.pc = s.pc + 3) ∧
  (∀ (m1 m2 m3 : Mode) (s t : State),
    (exec (.read m1 m2 m3) s = .next t ∨ exec (.write m1 m2 m3) s = .next t) → t.pc = s.pc) ∧
  (∀ (s t : State), s.Waiting → step s = .next t → t.runState = .running → t.pc = s.pc + 2) ∧
  (∀ (m1 m2 m3 : Mode) (s : State),
    ∃ t, exec (.halt m1 m2 m3) s = .next t ∧ t.pc = s.pc ∧ t.runState = .halted)

/-- R40, R114: the next fetch sees the word just stored. An Add that stores at the address it advances
to decides what the next instruction is. -/
def Obligations.StoredWordIsTheNextInstruction : Prop :=
  ∀ (s t : State) (m1 m2 m3 : Mode) (a b : Int) (i : Instr),
    s.legal = true → s.mem.wf = true → s.runState = .running →
    readParam s 1 m1 = .ok a → readParam s 2 m2 = .ok b →
    writeAddr s 3 m3 = .ok ((s.pc + 4 : Nat) : Int) → FitsW s.params.W (a + b) →
    decode s.params (a + b) = .ok i → exec (.add m1 m2 m3) s = .next t →
    t.pc = s.pc + 4 ∧ memRead t (t.pc : Int) = .ok (a + b) ∧ step t = exec i t

/-- A step always answers a next state when the parameters are legal, and stops when they are not
(R5; the stop is the model's choice, notes/assumptions/12.md). -/
def Obligations.EveryLegalStepAnswersANextState : Prop :=
  ∀ (s : State),
    (s.legal = true → ∃ t, step s = .next t) ∧
    (s.legal = false → step s = .fault .illegalParameters)

/-! ### Load, reset, terminal states (70_reset_and_hazards.md) -/

/-- R109, R110: load and start. Every cell of the image, its length, and every other reset value; the
parameters stay. Of `io_latch` nothing is said but that it holds a word. That load and start are one
move, taken from the host's script, is the model's (DESIGN CHOICE, notes/assumptions/8.md, 10.md). -/
def Obligations.LoadSetsEveryField : Prop :=
  ∀ (s : State) (image : List Word) (rest : List HostMove),
    s.legal = true → s.Terminal → s.host = .load image :: rest →
    imageLegal s.params image = true →
    ∃ t, step s = .next t ∧
      t.mem.size = image.length ∧ t.mem.wf = true ∧
      (∀ (k : Nat) (v : Word), image[k]? = some v → memRead t (k : Int) = .ok v) ∧
      t.pc = 0 ∧ t.runState = .running ∧ t.faultCause.code = 0 ∧ t.faultPc = 0 ∧
      t.faultInfo = 0 ∧ t.inputLog = [] ∧ t.outputLog = [] ∧
      FitsW t.params.W t.ioLatch ∧ t.params = s.params ∧ t.host = rest ∧
      t.hostRest = s.hostRest ∧ t.hostIndex = s.hostIndex

/-- R110 for `State.reset`; the empty image, the value of `io_latch` and the default parameters are
the model's choices (notes/assumptions/1.md, 4.md, 5.md) and are not part of the claim. -/
def Obligations.ResetValues : Prop :=
  State.reset.pc = 0 ∧ State.reset.runState = .running ∧ State.reset.faultCause.code = 0 ∧
  State.reset.faultPc = 0 ∧ State.reset.faultInfo = 0 ∧ State.reset.inputLog = [] ∧
  State.reset.outputLog = []

/-- R60, R98, R111: HALTED and FAULTED are left only by a load, and until then every field the host
sees stays as it is. Three points are the model's: the host's script (DESIGN CHOICE,
notes/assumptions/8.md), that a next move the host may not make now is not made (DEDUCED from R81,
notes/assumptions/9.md), and that an image which is not legal is no move (DEDUCED from R5 and R112,
notes/assumptions/10.md). -/
def Obligations.TerminalStatesAreLeftOnlyByLoad : Prop :=
  ∀ (s t : State), s.Terminal → step s = .next t →
    (t = { s with host := t.host, hostRest := t.hostRest, hostIndex := t.hostIndex } ∧
      (t.host = s.host ∨ s.host = .idle :: t.host ∨ s.host = [])) ∨
    ∃ image, s.host = .load image :: t.host ∧ imageLegal s.params image = true ∧
      t = loadStart image { s with host := t.host }

/-- R5, R17, R111: the parameters never change, and `N` changes only by a load, which no running or
waiting core takes. -/
def Obligations.ParametersAndSizeAreFixedForARun : Prop :=
  ∀ (s t : State), step s = .next t →
    t.params = s.params ∧ (¬ s.Terminal → t.mem.size = s.mem.size)

/-- R42, R109, 95_test_vectors.md W8: a load leaves nothing of the earlier run behind. Two stopped
cores with the same parameters and the same host moves are the same after it, up to the latch, which
no rule reads. The host's script is the model's (DESIGN CHOICE, notes/assumptions/8.md, 10.md). -/
def Obligations.LoadForgetsTheEarlierRun : Prop :=
  ∀ (s s' t t' : State) (image : List Word) (rest : List HostMove),
    s.Terminal → s'.Terminal → s.params = s'.params →
    s.hostRest = s'.hostRest → s.hostIndex = s'.hostIndex →
    s.host = .load image :: rest → s'.host = .load image :: rest →
    imageLegal s.params image = true → step s = .next t → step s' = .next t' →
    SameButLatch t t'

/-! ### Invariants and isolation -/

/-- The invariant holds at reset. -/
def Obligations.ResetMeetsTheInvariant : Prop := State.reset.Inv

/-- Every step keeps the invariant (R6, R14, R16, R20, R21). The canonical memory is the model's
(DESIGN CHOICE, notes/assumptions/7.md), and the bound of `pc` follows R16 where R14 differs (DEDUCED,
notes/assumptions/13.md). -/
def Obligations.StepKeepsTheInvariant : Prop :=
  ∀ (s t : State), s.Inv → step s = .next t → t.Inv

/-- R21, R23, R109: outside a wait the latch is not observable. Two states that differ only in it (and
in the model's own counter) step to two states that differ only in it, and show the host the same
status. So no run depends on the unspecified latch after a load. The counter is the model's
(notes/assumptions/6.md), and the status shows `M` in every execution state (DESIGN CHOICE,
notes/assumptions/22.md). -/
def Obligations.LatchIsNotObservable : Prop :=
  ∀ (s s' t t' : State), SameButLatch s s' → step s = .next t → step s' = .next t' →
    SameButLatch t t' ∧ t.status = t'.status ∧ t.report = t'.report ∧ t.request = t'.request

/-- R9, R62, R67: the instruction whose bits the host places at `pc` is the one the next step runs
(the model's reading of the table's numbering, notes/assumptions/4.md and 19.md). -/
def Obligations.PlacedWordIsTheNextInstruction : Prop :=
  ∀ (s : State) (nbits w : Nat) (i : Instr),
    s.legal = true → s.mem.wf = true → s.pc + 4 ≤ halfRange s.params.W →
    decode s.params (tableWord s.params.W (w % 2 ^ nbits) 0) = .ok i →
    step (s.withFetchWord nbits w) = exec i (s.withFetchWord nbits w)
end

