-- ==== Sys2Proof/Laws/Decode.lean ====
section
/-! SUPPORT. What the decoder's parts can answer (30_encoding.md R44, R47, R49). -/

namespace Sys2Proof

open Sys2Proof.Machine

/-- A mode digit is exactly the digit of its mode. -/
theorem modeOf_eq_some {d : Nat} {m : Mode} : modeOf d = some m ↔ d = m.digit := by
  unfold modeOf
  cases m <;> split <;> simp_all [Mode.digit]

theorem modeOf_eq_none {d : Nat} : modeOf d = none ↔ 1 < d := by
  unfold modeOf
  split
  · simp_all
  · split
    · simp_all
    · simp only [true_iff]; omega

theorem modesOf_eq_some {a : Nat} {m1 m2 m3 : Mode} :
    modesOf a = some (m1, m2, m3) ↔
      digit a 2 = m1.digit ∧ digit a 3 = m2.digit ∧ digit a 4 = m3.digit := by
  rw [← modeOf_eq_some, ← modeOf_eq_some, ← modeOf_eq_some]
  unfold modesOf
  split <;> simp_all

theorem modesOf_eq_none {a : Nat} :
    modesOf a = none ↔ 1 < digit a 2 ∨ 1 < digit a 3 ∨ 1 < digit a 4 := by
  rw [← modeOf_eq_none, ← modeOf_eq_none, ← modeOf_eq_none]
  unfold modesOf
  cases modeOf (digit a 2) <;> cases modeOf (digit a 3) <;> cases modeOf (digit a 4) <;> simp

/-- The opcode map is closed (R47). -/
theorem constructorOf_eq_none {op : Nat} :
    constructorOf op = none ↔ op ∉ [1, 2, 3, 4, 5, 6, 7, 8, 99] := by
  unfold constructorOf
  repeat' split
  all_goals simp_all

/-- The opcode map and the opcodes of the constructors agree (R47). -/
theorem constructorOf_opcode (i : Instr) :
    ∃ mk, constructorOf i.opcode = some mk ∧ mk i.modes.1 i.modes.2.1 i.modes.2.2 = i := by
  cases i <;> exact ⟨_, rfl, rfl⟩

/-- The one check of WellFormed (R54). -/
theorem wellFormed_iff {p : Params} {i : Instr} :
    WellFormed p i = true ↔ ¬(p.strictWriteMode = true ∧ i.targetMode = some .immediate) := by
  unfold WellFormed
  cases p.strictWriteMode <;> simp

/-- What an accepted word is (R51). -/
theorem decode_ok {p : Params} {w : Word} {i : Instr} (h : decode p w = .ok i) :
    w.natAbs ≤ 99999 ∧ WellFormed p i = true ∧
      ∃ mk m1 m2 m3, constructorOf (w.natAbs % 100) = some mk ∧
        modesOf w.natAbs = some (m1, m2, m3) ∧ i = mk m1 m2 m3 := by
  unfold decode at h
  split at h
  · cases h
  · split at h
    · cases h
    · rename_i mk hmk
      split at h
      · cases h
      · rename_i m1 m2 m3 hm
        split at h
        · obtain rfl : mk m1 m2 m3 = i := by simpa using h
          exact ⟨by omega, ‹_›, mk, m1, m2, m3, hmk, hm, rfl⟩
        · cases h

/-- The decoder of table words is the decoder of words. -/
theorem decodeTableWord_of_decode {nbits w : Nat} {i : Instr}
    (h : decode Params.default (tableWord Params.default.W (w % 2 ^ nbits) 0) = .ok i) :
    decodeTableWord nbits w = some i := by
  unfold decodeTableWord
  rw [h, accepted]

end Sys2Proof
end

