-- ==== Sys2Proof/Laws/Memory.lean ====
section
/-! SUPPORT. The laws of the memory: what a read after a write gives (20_memory.md R31, R36), and
that every operation keeps the canonical form. -/

namespace Sys2Proof.Machine

/-! ### The list of cells -/

/-- In canonical form nothing is listed below the lower bound. -/
theorem cellsGet_below {lo size a : Nat} :
    ∀ {l : List (Nat × Word)}, cellsWf lo size l = true → a < lo → cellsGet l a = 0
  | [], _, _ => rfl
  | (b, u) :: rest, h, ha => by
    simp only [cellsWf, Bool.and_eq_true, decide_eq_true_eq] at h
    rw [cellsGet, if_neg (by omega)]
    exact cellsGet_below h.2 (by omega)

theorem cellsGet_cellsSet_other {a b : Nat} (v : Word) (hab : b ≠ a) :
    ∀ l : List (Nat × Word), cellsGet (cellsSet l a v) b = cellsGet l b
  | [] => by
    unfold cellsSet
    split <;> simp [cellsGet, hab]
  | (c, u) :: rest => by
    have ih := cellsGet_cellsSet_other v hab rest
    unfold cellsSet
    split
    · split <;> simp [cellsGet, hab]
    · split
      · subst c
        split <;> simp [cellsGet, hab]
      · simp [cellsGet, ih]

theorem cellsGet_cellsSet_same {a lo size : Nat} (v : Word) :
    ∀ {l : List (Nat × Word)}, cellsWf lo size l = true → cellsGet (cellsSet l a v) a = v
  | [], _ => by
    unfold cellsSet
    split <;> simp_all [cellsGet]
  | (c, u) :: rest, h => by
    have h' := h
    simp only [cellsWf, Bool.and_eq_true, decide_eq_true_eq] at h
    unfold cellsSet
    split
    · split
      · subst v
        rw [cellsGet, if_neg (by omega)]
        exact cellsGet_below h.2 (by omega)
      · simp [cellsGet]
    · split
      · subst c
        split
        · subst v
          exact cellsGet_below h.2 (by omega)
        · simp [cellsGet]
      · rename_i hne
        rw [cellsGet, if_neg hne]
        exact cellsGet_cellsSet_same v h.2

theorem cellsWf_mono {lo lo' size : Nat} (hlo : lo' ≤ lo) :
    ∀ {l : List (Nat × Word)}, cellsWf lo size l = true → cellsWf lo' size l = true
  | [], _ => rfl
  | (_, _) :: _, h => by
    simp only [cellsWf, Bool.and_eq_true, decide_eq_true_eq] at h ⊢
    exact ⟨⟨⟨by omega, h.1.1.2⟩, h.1.2⟩, h.2⟩

theorem cellsWf_size_mono {lo size size' : Nat} (hs : size ≤ size') :
    ∀ {l : List (Nat × Word)}, cellsWf lo size l = true → cellsWf lo size' l = true
  | [], _ => rfl
  | (_, _) :: _, h => by
    simp only [cellsWf, Bool.and_eq_true, decide_eq_true_eq] at h ⊢
    exact ⟨⟨⟨h.1.1.1, by omega⟩, h.1.2⟩, cellsWf_size_mono hs h.2⟩

theorem cellsSet_wf {a size : Nat} (v : Word) (ha : a < size) :
    ∀ {lo : Nat} {l : List (Nat × Word)}, lo ≤ a → cellsWf lo size l = true →
      cellsWf lo size (cellsSet l a v) = true
  | lo, [], hlo, _ => by
    unfold cellsSet
    split
    · rfl
    · simp [cellsWf, *]
  | lo, (c, u) :: rest, hlo, h => by
    have h' := h
    simp only [cellsWf, Bool.and_eq_true, decide_eq_true_eq] at h
    unfold cellsSet
    split
    · split
      · exact h'
      · simp only [cellsWf, Bool.and_eq_true, decide_eq_true_eq]
        exact ⟨⟨⟨hlo, ha⟩, ‹_›⟩, ⟨⟨⟨by omega, h.1.1.2⟩, h.1.2⟩, h.2⟩⟩
    · split
      · subst c
        split
        · exact cellsWf_mono (by omega) h.2
        · simp only [cellsWf, Bool.and_eq_true, decide_eq_true_eq]
          exact ⟨⟨⟨hlo, ha⟩, ‹_›⟩, h.2⟩
      · simp only [cellsWf, Bool.and_eq_true, decide_eq_true_eq]
        exact ⟨⟨⟨h.1.1.1, h.1.1.2⟩, h.1.2⟩, cellsSet_wf v ha (by omega) h.2⟩

/-- The cells of a written list are the written word and cells of the old list. -/
theorem mem_cellsSet {a : Nat} {v : Word} {c : Nat × Word} :
    ∀ {l : List (Nat × Word)}, c ∈ cellsSet l a v → c = (a, v) ∨ c ∈ l
  | [], h => by
    unfold cellsSet at h
    split at h <;> simp_all
  | (b, u) :: rest, h => by
    unfold cellsSet at h
    split at h
    · split at h <;> simp_all
    · split at h
      · split at h <;> simp_all
        rcases h with h | h <;> simp [h]
      · rcases List.mem_cons.1 h with h | h
        · simp [h]
        · rcases mem_cellsSet h with h | h <;> simp [h]

theorem cellsOf_wf {size : Nat} :
    ∀ {k : Nat} {image : List Word}, k + image.length ≤ size →
      cellsWf k size (cellsOf k image) = true
  | _, [], _ => rfl
  | k, v :: rest, h => by
    simp only [List.length_cons] at h
    have ih : cellsWf (k + 1) size (cellsOf (k + 1) rest) = true := cellsOf_wf (by omega)
    unfold cellsOf
    split
    · exact cellsWf_mono (by omega) ih
    · simp only [cellsWf, Bool.and_eq_true, decide_eq_true_eq]
      exact ⟨⟨⟨le_refl k, by omega⟩, ‹_›⟩, ih⟩

theorem cellsGet_cellsOf :
    ∀ {k j : Nat} {image : List Word}, cellsGet (cellsOf k image) (k + j) = image.getD j 0
  | _, _, [] => by simp [cellsOf, cellsGet]
  | k, 0, v :: rest => by
    have hz : cellsGet (cellsOf (k + 1) rest) k = 0 :=
      cellsGet_below (cellsOf_wf (size := k + 1 + rest.length) (le_refl _)) (by omega)
    unfold cellsOf
    split
    · simp_all
    · simp [cellsGet]
  | k, j + 1, v :: rest => by
    have ih : cellsGet (cellsOf (k + 1) rest) (k + 1 + j) = rest.getD j 0 := cellsGet_cellsOf
    have e : k + (j + 1) = k + 1 + j := by omega
    unfold cellsOf
    split
    · rw [e, ih]; simp
    · rw [cellsGet, if_neg (by omega), e, ih]; simp

theorem mem_cellsOf {c : Nat × Word} :
    ∀ {k : Nat} {image : List Word}, c ∈ cellsOf k image → c.2 ∈ image
  | _, [], h => by simp [cellsOf] at h
  | k, v :: rest, h => by
    unfold cellsOf at h
    split at h
    · exact List.mem_cons_of_mem _ (mem_cellsOf h)
    · rcases List.mem_cons.1 h with h | h
      · simp [h]
      · exact List.mem_cons_of_mem _ (mem_cellsOf h)

/-! ### The memory -/

@[simp] theorem Memory.set_size (m : Memory) (a : Nat) (v : Word) : (m.set a v).size = m.size := rfl

@[simp] theorem Memory.ofImage_size (image : List Word) :
    (Memory.ofImage image).size = image.length := rfl

/-- A write leaves every other address alone (R31). -/
theorem Memory.get_set_other (m : Memory) {a b : Nat} (v : Word) (h : b ≠ a) :
    (m.set a v).get b = m.get b := cellsGet_cellsSet_other v h m.cells

/-- A read after a write to the same address gives the word written (R36). -/
theorem Memory.get_set_same {m : Memory} (h : m.wf = true) (a : Nat) (v : Word) :
    (m.set a v).get a = v := cellsGet_cellsSet_same v h

theorem Memory.set_wf {m : Memory} (h : m.wf = true) {a : Nat} (v : Word) (ha : a < m.size) :
    (m.set a v).wf = true := cellsSet_wf v ha (Nat.zero_le a) h

theorem Memory.ofImage_wf (image : List Word) : (Memory.ofImage image).wf = true :=
  cellsOf_wf (by simp)

/-- After a load, address `k` holds word `k` of the image (R109). -/
theorem Memory.get_ofImage (image : List Word) (k : Nat) :
    (Memory.ofImage image).get k = image.getD k 0 := by
  have h := cellsGet_cellsOf (k := 0) (j := k) (image := image)
  simpa [Memory.get, Memory.ofImage] using h

theorem cellsGet_fits {W : Nat} (a : Nat) :
    ∀ {l : List (Nat × Word)}, l.all (fun c => decide (FitsW W c.2)) = true →
      FitsW W (cellsGet l a)
  | [], _ => by
    have := Nat.two_pow_pos (W - 1)
    simp only [cellsGet, FitsW, halfRange]
    omega
  | c :: rest, h => by
    simp only [List.all_cons, Bool.and_eq_true, decide_eq_true_eq] at h
    unfold cellsGet
    split
    · exact h.1
    · exact cellsGet_fits a h.2

/-- Memory that holds words reads words. -/
theorem Memory.get_fits {W : Nat} {m : Memory} (h : m.fits W = true) (a : Nat) :
    FitsW W (m.get a) := cellsGet_fits a h

theorem Memory.set_fits {W : Nat} {m : Memory} (h : m.fits W = true) (a : Nat) {v : Word}
    (hv : FitsW W v) : (m.set a v).fits W = true := by
  simp only [Memory.fits, List.all_eq_true, decide_eq_true_eq] at h ⊢
  intro c hc
  rcases mem_cellsSet hc with rfl | hc
  · exact hv
  · exact h c hc

theorem Memory.ofImage_fits {W : Nat} {image : List Word} (h : ∀ v ∈ image, FitsW W v) :
    (Memory.ofImage image).fits W = true := by
  simp only [Memory.fits, List.all_eq_true, decide_eq_true_eq]
  exact fun c hc => h c.2 (mem_cellsOf hc)

/-- The reset memory is in canonical form. -/
theorem State.reset_mem_wf : State.reset.mem.wf = true := rfl

/-! ### Placing words -/

theorem Memory.place_size :
    ∀ (ws : List Word) (m : Memory) (a : Nat), (m.place a ws).size = m.size
  | [], _, _ => rfl
  | v :: rest, m, a => by rw [Memory.place, Memory.place_size rest]; rfl

theorem Memory.place_wf :
    ∀ {ws : List Word} {m : Memory} {a : Nat}, m.wf = true → a + ws.length ≤ m.size →
      (m.place a ws).wf = true
  | [], _, _, h, _ => h
  | v :: rest, m, a, h, ha => by
    simp only [List.length_cons] at ha
    have hs : (m.set a v).wf = true := Memory.set_wf h v (by omega)
    exact Memory.place_wf (m := m.set a v) hs (by simp only [Memory.set_size]; omega)

/-- Words placed above an address leave it alone. -/
theorem Memory.place_get_below :
    ∀ (ws : List Word) (m : Memory) {a b : Nat}, b < a → (m.place a ws).get b = m.get b
  | [], _, _, _, _ => rfl
  | v :: rest, m, a, b, h => by
    rw [Memory.place, Memory.place_get_below rest _ (by omega),
      Memory.get_set_other _ _ (by omega)]

end Sys2Proof.Machine
end

