-- ==== Sys2Proof/Laws/Numbers.lean ====
section
/-! SUPPORT. The laws of the number primitives (00_scope.md R7, R8). -/

namespace Sys2Proof.Machine

theorem halfRange_pos (W : Nat) : 0 < halfRange W := Nat.two_pow_pos _

/-- `2^W` is twice the half range. -/
theorem two_pow_eq_halfRange {W : Nat} (h : 1 ≤ W) : 2 ^ W = 2 * halfRange W := by
  obtain ⟨k, rfl⟩ : ∃ k, W = k + 1 := ⟨W - 1, by omega⟩
  simp [halfRange, pow_succ, Nat.mul_comm]

/-- With a legal width the small integers are words: the half range is at least `2^17` (R5, D1). -/
theorem halfRange_ge {W : Nat} (h : 18 ≤ W) : 131072 ≤ halfRange W := by
  have : 2 ^ 17 ≤ 2 ^ (W - 1) := Nat.pow_le_pow_right (by omega) (by omega)
  simpa [halfRange] using this

/-- A wrapped value is a word (R7). -/
theorem wrapW_fits {W : Nat} (h : 1 ≤ W) (v : Int) : FitsW W (wrapW W v) := by
  have hp : 0 < 2 ^ W := Nat.two_pow_pos W
  have e := two_pow_eq_halfRange h
  have hl := Int.le_bmod (x := v) hp
  have hu := Int.bmod_lt (x := v) hp
  unfold wrapW FitsW
  rw [e] at hl hu ⊢
  push_cast at hl hu ⊢
  omega

/-- A wrapped value is congruent to the value modulo `2^W` (R7). -/
theorem wrapW_emod (W : Nat) (v : Int) :
    wrapW W v % ((2 ^ W : Nat) : Int) = v % ((2 ^ W : Nat) : Int) := by
  unfold wrapW
  exact Int.bmod_emod

/-- A word wraps to itself. -/
theorem wrapW_of_fits {W : Nat} (h : 1 ≤ W) {v : Int} (hv : FitsW W v) : wrapW W v = v := by
  have e := two_pow_eq_halfRange h
  unfold wrapW
  rw [e]
  apply Int.bmod_eq_of_le
  · push_cast; have := hv.1; omega
  · push_cast; have := hv.2; omega

end Sys2Proof.Machine
end

