-- ==== Sys2Proof/Laws/State.lean ====
section
/-! SUPPORT. One lemma per field per named update of the state, so that no later proof unfolds a
record update. -/

namespace Sys2Proof.Machine

/-! ### `pc <- a` -/

@[simp] theorem State.setPc_pc (a : Nat) (s : State) :
    (s.setPc a).pc = a := rfl
@[simp] theorem State.setPc_mem (a : Nat) (s : State) :
    (s.setPc a).mem = s.mem := rfl
@[simp] theorem State.setPc_runState (a : Nat) (s : State) :
    (s.setPc a).runState = s.runState := rfl
@[simp] theorem State.setPc_faultCause (a : Nat) (s : State) :
    (s.setPc a).faultCause = s.faultCause := rfl
@[simp] theorem State.setPc_faultPc (a : Nat) (s : State) :
    (s.setPc a).faultPc = s.faultPc := rfl
@[simp] theorem State.setPc_faultInfo (a : Nat) (s : State) :
    (s.setPc a).faultInfo = s.faultInfo := rfl
@[simp] theorem State.setPc_ioLatch (a : Nat) (s : State) :
    (s.setPc a).ioLatch = s.ioLatch := rfl
@[simp] theorem State.setPc_inputLog (a : Nat) (s : State) :
    (s.setPc a).inputLog = s.inputLog := rfl
@[simp] theorem State.setPc_outputLog (a : Nat) (s : State) :
    (s.setPc a).outputLog = s.outputLog := rfl
@[simp] theorem State.setPc_params (a : Nat) (s : State) :
    (s.setPc a).params = s.params := rfl
@[simp] theorem State.setPc_host (a : Nat) (s : State) :
    (s.setPc a).host = s.host := rfl
@[simp] theorem State.setPc_hostRest (a : Nat) (s : State) :
    (s.setPc a).hostRest = s.hostRest := rfl
@[simp] theorem State.setPc_hostIndex (a : Nat) (s : State) :
    (s.setPc a).hostIndex = s.hostIndex := rfl
@[simp] theorem State.setPc_freeIndex (a : Nat) (s : State) :
    (s.setPc a).freeIndex = s.freeIndex := rfl

/-! ### Fault entry (60_exceptions.md R96) -/

@[simp] theorem enterFault_pc (e : Raise) (s : State) :
    (enterFault e s).pc = s.pc := rfl
@[simp] theorem enterFault_mem (e : Raise) (s : State) :
    (enterFault e s).mem = s.mem := rfl
@[simp] theorem enterFault_runState (e : Raise) (s : State) :
    (enterFault e s).runState = .faulted := rfl
@[simp] theorem enterFault_faultCause (e : Raise) (s : State) :
    (enterFault e s).faultCause = e.cause := rfl
@[simp] theorem enterFault_faultPc (e : Raise) (s : State) :
    (enterFault e s).faultPc = s.pc := rfl
@[simp] theorem enterFault_faultInfo (e : Raise) (s : State) :
    (enterFault e s).faultInfo = e.info := rfl
@[simp] theorem enterFault_ioLatch (e : Raise) (s : State) :
    (enterFault e s).ioLatch = s.ioLatch := rfl
@[simp] theorem enterFault_inputLog (e : Raise) (s : State) :
    (enterFault e s).inputLog = s.inputLog := rfl
@[simp] theorem enterFault_outputLog (e : Raise) (s : State) :
    (enterFault e s).outputLog = s.outputLog := rfl
@[simp] theorem enterFault_params (e : Raise) (s : State) :
    (enterFault e s).params = s.params := rfl
@[simp] theorem enterFault_host (e : Raise) (s : State) :
    (enterFault e s).host = s.host := rfl
@[simp] theorem enterFault_hostRest (e : Raise) (s : State) :
    (enterFault e s).hostRest = s.hostRest := rfl
@[simp] theorem enterFault_hostIndex (e : Raise) (s : State) :
    (enterFault e s).hostIndex = s.hostIndex := rfl
@[simp] theorem enterFault_freeIndex (e : Raise) (s : State) :
    (enterFault e s).freeIndex = s.freeIndex := rfl

/-! ### Load and start (70_reset_and_hazards.md R109) -/

@[simp] theorem loadStart_pc (image : List Word) (s : State) :
    (loadStart image s).pc = 0 := rfl
@[simp] theorem loadStart_mem (image : List Word) (s : State) :
    (loadStart image s).mem = Memory.ofImage image := rfl
@[simp] theorem loadStart_runState (image : List Word) (s : State) :
    (loadStart image s).runState = .running := rfl
@[simp] theorem loadStart_faultCause (image : List Word) (s : State) :
    (loadStart image s).faultCause = .none := rfl
@[simp] theorem loadStart_faultPc (image : List Word) (s : State) :
    (loadStart image s).faultPc = 0 := rfl
@[simp] theorem loadStart_faultInfo (image : List Word) (s : State) :
    (loadStart image s).faultInfo = 0 := rfl
@[simp] theorem loadStart_ioLatch (image : List Word) (s : State) :
    (loadStart image s).ioLatch = wrapW s.params.W (Config.freeLatch s.freeIndex) := rfl
@[simp] theorem loadStart_inputLog (image : List Word) (s : State) :
    (loadStart image s).inputLog = [] := rfl
@[simp] theorem loadStart_outputLog (image : List Word) (s : State) :
    (loadStart image s).outputLog = [] := rfl
@[simp] theorem loadStart_params (image : List Word) (s : State) :
    (loadStart image s).params = s.params := rfl
@[simp] theorem loadStart_host (image : List Word) (s : State) :
    (loadStart image s).host = s.host := rfl
@[simp] theorem loadStart_hostRest (image : List Word) (s : State) :
    (loadStart image s).hostRest = s.hostRest := rfl
@[simp] theorem loadStart_hostIndex (image : List Word) (s : State) :
    (loadStart image s).hostIndex = s.hostIndex := rfl
@[simp] theorem loadStart_freeIndex (image : List Word) (s : State) :
    (loadStart image s).freeIndex = s.freeIndex + 1 := rfl

/-! ### Write completion (42_io.md R80) -/

@[simp] theorem completeWrite_pc (s : State) :
    (completeWrite s).pc = s.pc + 2 := rfl
@[simp] theorem completeWrite_mem (s : State) :
    (completeWrite s).mem = s.mem := rfl
@[simp] theorem completeWrite_runState (s : State) :
    (completeWrite s).runState = .running := rfl
@[simp] theorem completeWrite_faultCause (s : State) :
    (completeWrite s).faultCause = s.faultCause := rfl
@[simp] theorem completeWrite_faultPc (s : State) :
    (completeWrite s).faultPc = s.faultPc := rfl
@[simp] theorem completeWrite_faultInfo (s : State) :
    (completeWrite s).faultInfo = s.faultInfo := rfl
@[simp] theorem completeWrite_ioLatch (s : State) :
    (completeWrite s).ioLatch = s.ioLatch := rfl
@[simp] theorem completeWrite_inputLog (s : State) :
    (completeWrite s).inputLog = s.inputLog := rfl
@[simp] theorem completeWrite_outputLog (s : State) :
    (completeWrite s).outputLog = s.outputLog ++ [s.ioLatch] := rfl
@[simp] theorem completeWrite_params (s : State) :
    (completeWrite s).params = s.params := rfl
@[simp] theorem completeWrite_host (s : State) :
    (completeWrite s).host = s.host := rfl
@[simp] theorem completeWrite_hostRest (s : State) :
    (completeWrite s).hostRest = s.hostRest := rfl
@[simp] theorem completeWrite_hostIndex (s : State) :
    (completeWrite s).hostIndex = s.hostIndex := rfl
@[simp] theorem completeWrite_freeIndex (s : State) :
    (completeWrite s).freeIndex = s.freeIndex := rfl

/-! ### The host's decision (42_io.md R81): it changes the host's own fields only -/

theorem hostDecides_eq (s : State) :
    hostDecides s =
      { s with
        host := (hostDecides s).host
        hostRest := (hostDecides s).hostRest
        hostIndex := (hostDecides s).hostIndex } := by
  unfold hostDecides
  split
  · rfl
  · split <;> rfl
  · rfl

@[simp] theorem hostDecides_pc (s : State) :
    (hostDecides s).pc = s.pc := by rw [hostDecides_eq]
@[simp] theorem hostDecides_mem (s : State) :
    (hostDecides s).mem = s.mem := by rw [hostDecides_eq]
@[simp] theorem hostDecides_runState (s : State) :
    (hostDecides s).runState = s.runState := by rw [hostDecides_eq]
@[simp] theorem hostDecides_faultCause (s : State) :
    (hostDecides s).faultCause = s.faultCause := by rw [hostDecides_eq]
@[simp] theorem hostDecides_faultPc (s : State) :
    (hostDecides s).faultPc = s.faultPc := by rw [hostDecides_eq]
@[simp] theorem hostDecides_faultInfo (s : State) :
    (hostDecides s).faultInfo = s.faultInfo := by rw [hostDecides_eq]
@[simp] theorem hostDecides_ioLatch (s : State) :
    (hostDecides s).ioLatch = s.ioLatch := by rw [hostDecides_eq]
@[simp] theorem hostDecides_inputLog (s : State) :
    (hostDecides s).inputLog = s.inputLog := by rw [hostDecides_eq]
@[simp] theorem hostDecides_outputLog (s : State) :
    (hostDecides s).outputLog = s.outputLog := by rw [hostDecides_eq]
@[simp] theorem hostDecides_params (s : State) :
    (hostDecides s).params = s.params := by rw [hostDecides_eq]
@[simp] theorem hostDecides_freeIndex (s : State) :
    (hostDecides s).freeIndex = s.freeIndex := by rw [hostDecides_eq]

end Sys2Proof.Machine
end

