-- ==== Sys2Proof/Laws/Ops.lean ====
section
/-! SUPPORT. One lemma for each shared operation that says once what it can do. -/

namespace Sys2Proof.Machine

/-! ### Ending an instruction -/

@[simp] theorem finish_ok (s t : State) : finish s (.ok t) = .next t := rfl

@[simp] theorem finish_error (s : State) (e : Raise) : finish s (.error e) = .next (enterFault e s) :=
  rfl

theorem finish_next {s t : State} {r : Except Raise State} (h : finish s r = .next t) :
    r = .ok t ∨ ∃ e, r = .error e ∧ t = enterFault e s := by
  cases r with
  | ok u => left; simpa [finish] using h
  | error e => right; exact ⟨e, rfl, by simpa [finish] using h.symm⟩

/-! ### The access primitives (20_memory.md R33, R34) -/

theorem memRead_inRange {s : State} {a : Int} (h : InRange s a) :
    memRead s a = .ok (s.mem.get a.toNat) := by
  unfold memRead
  rw [if_neg (by omega)]

theorem memRead_outOfRange {s : State} {a : Int} (h : ¬ InRange s a) :
    memRead s a = .error ⟨.addressError, a⟩ := by
  unfold memRead
  rw [if_pos (by omega)]

theorem memRead_ok {s : State} {a : Int} {v : Word} (h : memRead s a = .ok v) :
    InRange s a ∧ v = s.mem.get a.toNat := by
  by_cases hr : InRange s a
  · rw [memRead_inRange hr] at h
    exact ⟨hr, by simpa using h.symm⟩
  · rw [memRead_outOfRange hr] at h
    cases h

theorem memRead_error {s : State} {a : Int} {e : Raise} (h : memRead s a = .error e) :
    ¬ InRange s a ∧ e = ⟨.addressError, a⟩ := by
  by_cases hr : InRange s a
  · rw [memRead_inRange hr] at h
    cases h
  · rw [memRead_outOfRange hr] at h
    exact ⟨hr, by simpa using h.symm⟩

/-- Reading depends on the memory alone. -/
theorem memRead_congr {s t : State} (h : s.mem = t.mem) (a : Int) : memRead s a = memRead t a := by
  simp only [memRead, h]

theorem memWrite_inRange {s : State} {a : Int} (v : Word) (h : InRange s a) :
    memWrite s a v = .ok { s with mem := s.mem.set a.toNat v } := by
  unfold memWrite
  rw [if_neg (by omega)]

theorem memWrite_ok {s t : State} {a : Int} {v : Word} (h : memWrite s a v = .ok t) :
    InRange s a ∧ t = { s with mem := s.mem.set a.toNat v } := by
  by_cases hr : InRange s a
  · rw [memWrite_inRange v hr] at h
    exact ⟨hr, by simpa using h.symm⟩
  · unfold memWrite at h
    rw [if_pos (by omega)] at h
    cases h

/-- A write keeps the canonical form. -/
theorem memWrite_keeps_wf {s t : State} {a : Int} {v : Word} (hw : s.mem.wf = true)
    (h : memWrite s a v = .ok t) : t.mem.wf = true := by
  obtain ⟨hr, rfl⟩ := memWrite_ok h
  exact Memory.set_wf hw v (by omega)

/-! ### Operands (30_encoding.md R53, R54) -/

theorem readParam_ok {s : State} {i : Nat} {m : Mode} {v : Word} (h : readParam s i m = .ok v) :
    InRange s ((s.pc + i : Nat) : Int) ∧ ∃ a, v = s.mem.get a := by
  unfold readParam paramWord at h
  split at h
  · cases h
  · rename_i p hp
    obtain ⟨hr, rfl⟩ := memRead_ok hp
    refine ⟨hr, ?_⟩
    cases m with
    | immediate => exact ⟨_, by simpa using h.symm⟩
    | position => exact ⟨_, (memRead_ok h).2⟩

theorem readParam_error {s : State} {i : Nat} {m : Mode} {e : Raise}
    (h : readParam s i m = .error e) : ∃ a, ¬ InRange s a ∧ e = ⟨.addressError, a⟩ := by
  unfold readParam paramWord at h
  split at h
  · rename_i e' he
    obtain rfl : e' = e := by simpa using h
    exact ⟨_, memRead_error he⟩
  · cases m with
    | immediate => cases h
    | position => exact ⟨_, memRead_error h⟩

theorem writeAddr_ok {s : State} {i : Nat} {m : Mode} {t : Word} (h : writeAddr s i m = .ok t) :
    InRange s ((s.pc + i : Nat) : Int) ∧ InRange s t ∧ t = s.mem.get (s.pc + i) := by
  unfold writeAddr at h
  cases hp : paramWord s i with
  | error e => simp [hp] at h
  | ok p =>
    obtain ⟨hr, hv⟩ := memRead_ok hp
    rw [Int.toNat_natCast] at hv
    simp only [hp] at h
    by_cases ht : InRange s p
    · rw [if_neg (by omega)] at h
      obtain rfl : p = t := by simpa using h
      exact ⟨hr, ht, hv⟩
    · rw [if_pos (by omega)] at h
      cases h

theorem writeAddr_error {s : State} {i : Nat} {m : Mode} {e : Raise}
    (h : writeAddr s i m = .error e) : ∃ a, ¬ InRange s a ∧ e = ⟨.addressError, a⟩ := by
  unfold writeAddr at h
  cases hp : paramWord s i with
  | error e' =>
    obtain rfl : e' = e := by simpa [hp] using h
    exact ⟨_, memRead_error hp⟩
  | ok p =>
    simp only [hp] at h
    by_cases ht : InRange s p
    · rw [if_neg (by omega)] at h
      cases h
    · rw [if_pos (by omega)] at h
      exact ⟨p, ht, by simpa using h.symm⟩

/-- The mode of a write target is ignored (R54). -/
theorem writeAddr_mode (s : State) (i : Nat) (m m' : Mode) : writeAddr s i m = writeAddr s i m' := rfl

/-! ### The ALU (41_arithmetic.md R71, 44_compare.md R91) -/

@[simp] theorem exactResult_add (a b : Int) : exactResult 1 a b = a + b := rfl

@[simp] theorem exactResult_multiply (a b : Int) : exactResult 2 a b = a * b := rfl

theorem narrow_fits {p : Params} (op : Nat) {e : Int} (h : FitsW p.W e) : narrow p op e = .ok e :=
  if_pos h

theorem narrow_overflow {p : Params} (op : Nat) {e : Int} (h : ¬ FitsW p.W e)
    (hp : p.overflowPolicy = .fault) : narrow p op e = .error ⟨.overflow, (op : Int)⟩ := by
  unfold narrow
  rw [if_neg h, hp]

theorem narrow_wraps {p : Params} (op : Nat) {e : Int} (h : ¬ FitsW p.W e)
    (hp : p.overflowPolicy = .wrap) : narrow p op e = .ok (wrapW p.W e) := by
  unfold narrow
  rw [if_neg h, hp]

theorem arith_ok {p : Params} {op : Nat} {a b r : Word} (hW : 1 ≤ p.W)
    (h : arith p op a b = .ok r) : FitsW p.W r := by
  unfold arith at h
  by_cases hf : FitsW p.W (exactResult op a b)
  · rw [narrow_fits op hf] at h
    obtain rfl : exactResult op a b = r := by simpa using h
    exact hf
  · cases hp : p.overflowPolicy with
    | fault =>
      rw [narrow_overflow op hf hp] at h
      cases h
    | wrap =>
      rw [narrow_wraps op hf hp] at h
      obtain rfl : wrapW p.W (exactResult op a b) = r := by simpa using h
      exact wrapW_fits hW _

theorem arith_error {p : Params} {op : Nat} {a b : Word} {e : Raise}
    (h : arith p op a b = .error e) :
    e = ⟨.overflow, (op : Int)⟩ ∧ p.overflowPolicy = .fault ∧ ¬ FitsW p.W (exactResult op a b) := by
  unfold arith at h
  by_cases hf : FitsW p.W (exactResult op a b)
  · rw [narrow_fits op hf] at h
    cases h
  · cases hp : p.overflowPolicy with
    | fault =>
      rw [narrow_overflow op hf hp] at h
      exact ⟨by simpa using h.symm, rfl, hf⟩
    | wrap =>
      rw [narrow_wraps op hf hp] at h
      cases h

theorem truthWord_fits {W : Nat} (h : 18 ≤ W) (b : Bool) : FitsW W (truthWord b) := by
  have := halfRange_ge h
  cases b <;> simp [truthWord, FitsW] <;> omega

/-! ### The instruction shapes -/

/-- A three-parameter instruction that commits resolved all its parameters, computed its result,
stored it and advanced by 4. -/
theorem threeParam_ok {alu : Word → Word → Except Raise Word} {m1 m2 m3 : Mode} {s u : State}
    (h : threeParam alu m1 m2 m3 s = .ok u) :
    ∃ a b t r, readParam s 1 m1 = .ok a ∧ readParam s 2 m2 = .ok b ∧ writeAddr s 3 m3 = .ok t ∧
      alu a b = .ok r ∧ u = { s with mem := s.mem.set t.toNat r, pc := s.pc + 4 } := by
  unfold threeParam at h
  cases ha : readParam s 1 m1 with
  | error e => simp [ha] at h
  | ok a =>
    cases hb : readParam s 2 m2 with
    | error e => simp [ha, hb] at h
    | ok b =>
      cases ht : writeAddr s 3 m3 with
      | error e => simp [ha, hb, ht] at h
      | ok t =>
        cases hr : alu a b with
        | error e => simp [ha, hb, ht, hr] at h
        | ok r =>
          simp only [ha, hb, ht, hr, memWrite_inRange r (writeAddr_ok ht).2.1] at h
          exact ⟨a, b, t, r, rfl, rfl, rfl, hr, by simpa [State.setPc] using h.symm⟩

/-- With its parameters resolved and its result computed, a three-parameter instruction commits. -/
theorem threeParam_commits {alu : Word → Word → Except Raise Word} {m1 m2 m3 : Mode} {s : State}
    {a b t r : Word} (ha : readParam s 1 m1 = .ok a) (hb : readParam s 2 m2 = .ok b)
    (ht : writeAddr s 3 m3 = .ok t) (hr : alu a b = .ok r) :
    threeParam alu m1 m2 m3 s = .ok { s with mem := s.mem.set t.toNat r, pc := s.pc + 4 } := by
  unfold threeParam
  simp [ha, hb, ht, hr, memWrite_inRange r (writeAddr_ok ht).2.1, State.setPc]

/-- What a three-parameter instruction can raise: an address error, or what its ALU raises on the
operands that parameters 1 and 2 read. -/
theorem threeParam_error {alu : Word → Word → Except Raise Word} {m1 m2 m3 : Mode} {s : State}
    {e : Raise} (h : threeParam alu m1 m2 m3 s = .error e) :
    (∃ a, ¬ InRange s a ∧ e = ⟨.addressError, a⟩) ∨
      ∃ a b, readParam s 1 m1 = .ok a ∧ readParam s 2 m2 = .ok b ∧ alu a b = .error e := by
  unfold threeParam at h
  cases ha : readParam s 1 m1 with
  | error e' =>
    obtain rfl : e' = e := by simpa [ha] using h
    exact .inl (readParam_error ha)
  | ok a =>
    cases hb : readParam s 2 m2 with
    | error e' =>
      obtain rfl : e' = e := by simpa [ha, hb] using h
      exact .inl (readParam_error hb)
    | ok b =>
      cases ht : writeAddr s 3 m3 with
      | error e' =>
        obtain rfl : e' = e := by simpa [ha, hb, ht] using h
        exact .inl (writeAddr_error ht)
      | ok t =>
        cases hr : alu a b with
        | error e' =>
          obtain rfl : e' = e := by simpa [ha, hb, ht, hr] using h
          exact .inr ⟨a, b, rfl, rfl, hr⟩
        | ok r => simp [ha, hb, ht, hr, memWrite_inRange r (writeAddr_ok ht).2.1] at h

/-- A jump that commits resolved both its parameters, and either was taken to a target that is not
negative, or advanced by 3 (43_jump.md R85 to R87). -/
theorem conditionalJump_ok {taken : Word → Bool} {m1 m2 : Mode} {s u : State}
    (h : conditionalJump taken m1 m2 s = .ok u) :
    ∃ c d, readParam s 1 m1 = .ok c ∧ readParam s 2 m2 = .ok d ∧
      ((taken c = true ∧ 0 ≤ d ∧ u = s.setPc d.toNat) ∨
        (taken c = false ∧ u = s.setPc (s.pc + 3))) := by
  unfold conditionalJump at h
  cases hc : readParam s 1 m1 with
  | error e => simp [hc] at h
  | ok c =>
    cases hd : readParam s 2 m2 with
    | error e => simp [hc, hd] at h
    | ok d =>
      refine ⟨c, d, rfl, rfl, ?_⟩
      simp only [hc, hd] at h
      cases ht : taken c with
      | false => exact .inr ⟨rfl, by simpa [ht] using h.symm⟩
      | true =>
        simp only [ht, if_true, jumpTo] at h
        by_cases hn : d < 0
        · rw [if_pos hn] at h
          cases h
        · rw [if_neg hn] at h
          exact .inl ⟨rfl, Int.not_lt.1 hn, by simpa using h.symm⟩

theorem conditionalJump_error {taken : Word → Bool} {m1 m2 : Mode} {s : State} {e : Raise}
    (h : conditionalJump taken m1 m2 s = .error e) :
    ∃ a, ¬ InRange s a ∧ e = ⟨.addressError, a⟩ := by
  unfold conditionalJump at h
  cases hc : readParam s 1 m1 with
  | error e' =>
    obtain rfl : e' = e := by simpa [hc] using h
    exact readParam_error hc
  | ok c =>
    cases hd : readParam s 2 m2 with
    | error e' =>
      obtain rfl : e' = e := by simpa [hc, hd] using h
      exact readParam_error hd
    | ok d =>
      simp only [hc, hd] at h
      cases ht : taken c with
      | false => simp [ht] at h
      | true =>
        simp only [ht, if_true, jumpTo] at h
        by_cases hn : d < 0
        · rw [if_pos hn] at h
          exact ⟨d, fun hr => Int.not_le.2 hn hr.1, by simpa using h.symm⟩
        · rw [if_neg hn] at h
          cases h

/-! ### Fetch and decode (40_execution_cycle.md R61, R62) -/

theorem fetchDecode_ok {s : State} {i : Instr} (h : fetchDecode s = .ok i) :
    ∃ w, memRead s (s.pc : Int) = .ok w ∧ decode s.params w = .ok i := by
  unfold fetchDecode at h
  split at h
  · cases h
  · rename_i w hw
    split at h
    · rename_i j hj
      obtain rfl : j = i := by simpa using h
      exact ⟨w, hw, hj⟩
    · cases h

theorem fetchDecode_error {s : State} {e : Raise} (h : fetchDecode s = .error e) :
    (¬ InRange s (s.pc : Int) ∧ e = ⟨.addressError, (s.pc : Int)⟩) ∨
      ∃ w r, memRead s (s.pc : Int) = .ok w ∧ decode s.params w = .error r ∧
        e = ⟨.decodeError, w⟩ := by
  unfold fetchDecode at h
  split at h
  · rename_i e' he
    obtain rfl : e' = e := by simpa using h
    exact .inl (memRead_error he)
  · rename_i w hw
    split at h
    · cases h
    · rename_i r hr
      exact .inr ⟨w, r, hw, hr, by simpa using h.symm⟩

/-! ### The host's moves (42_io.md R77, R78, R80; 70_reset_and_hazards.md R109, R111) -/

theorem imageLegal_iff {p : Params} {image : List Word} :
    imageLegal p image = true ↔
      image.length ≤ halfRange p.W ∧ ∀ v ∈ image, FitsW p.W v := by
  simp [imageLegal, FitsW]

theorem State.legal_iff {s : State} :
    s.legal = true ↔ 18 ≤ s.params.W ∧ s.mem.size ≤ halfRange s.params.W := by
  simp [State.legal]

end Sys2Proof.Machine
end

