-- ==== Sys2Proof/Laws/HostTurn.lean ====
section
/-! SUPPORT. What a turn of the host can do, once per kind of state (42_io.md R81). -/

namespace Sys2Proof.Machine

/-- The three outcomes of a Read's completion (42_io.md R77, R78); the last one, a latch out of
range, is ruled out in WAIT_IN by the invariant. -/
theorem completeRead_cases (a : InAnswer) (s : State) :
    (∃ v, a = .value v ∧ FitsW s.params.W v ∧ InRange s s.ioLatch ∧
      completeRead a s =
        { s with
          inputLog := s.inputLog ++ [a]
          mem := s.mem.set s.ioLatch.toNat v
          pc := s.pc + 2
          runState := .running }) ∨
    ((∀ v, a = .value v → ¬ FitsW s.params.W v) ∧
      completeRead a s =
        enterFault ⟨.parseError, 0⟩ { s with inputLog := s.inputLog ++ [a] }) ∨
    (¬ InRange s s.ioLatch ∧
      completeRead a s =
        enterFault ⟨.addressError, s.ioLatch⟩ { s with inputLog := s.inputLog ++ [a] }) := by
  cases a with
  | malformed => exact .inr (.inl ⟨by simp, rfl⟩)
  | value v =>
    by_cases hf : FitsW s.params.W v
    · by_cases hr : InRange s s.ioLatch
      · refine .inl ⟨v, rfl, hf, hr, ?_⟩
        unfold completeRead
        simp only [if_pos hf]
        rw [memWrite_inRange v (s := { s with inputLog := s.inputLog ++ [InAnswer.value v] }) hr]
      · refine .inr (.inr ⟨hr, ?_⟩)
        unfold completeRead memWrite
        simp only [if_pos hf]
        rw [if_pos (show OutOfRange s.mem s.ioLatch by omega)]
    · refine .inr (.inl ⟨?_, ?_⟩)
      · intro u hu
        cases hu
        exact hf
      · unfold completeRead
        simp only [if_neg hf]

/-! ### The host's decision -/

theorem hostDecides_silent {s : State} (h : s.hostRest = .silent) : hostDecides s = s := by
  unfold hostDecides
  rw [h]

theorem hostDecides_answering_waitIn {s : State} {next : InAnswer} {later : List InAnswer}
    (h : s.hostRest = .answering next later) (hr : s.runState = .waitIn) :
    hostDecides s = { s with host := [.answer next], hostRest := .rotated next later } := by
  unfold hostDecides
  simp only [h, hr]

theorem hostDecides_answering_waitOut {s : State} {next : InAnswer} {later : List InAnswer}
    (h : s.hostRest = .answering next later) (hr : s.runState = .waitOut) :
    hostDecides s = { s with host := [.outAck] } := by
  unfold hostDecides
  simp only [h, hr]

/-- Going round the answers leaves a host that answers every request. -/
theorem HostRest.rotated_answering (next : InAnswer) (later : List InAnswer) :
    ∃ a rest, HostRest.rotated next later = .answering a rest := by
  cases later with
  | nil => exact ⟨_, _, rfl⟩
  | cons a rest => exact ⟨_, _, rfl⟩

/-! ### The turns -/

/-- What a step does in WAIT_IN. -/
theorem waitInTurn_cases (s : State) :
    (∃ a rest, s.host = .answer a :: rest ∧ waitInTurn s = completeRead a { s with host := rest }) ∨
    (∃ rest, s.host = .idle :: rest ∧ waitInTurn s = { s with host := rest }) ∨
    (s.host = [] ∧ waitInTurn s = hostDecides s) ∨
    (s.host ≠ [] ∧ (∀ a rest, s.host ≠ .answer a :: rest) ∧ (∀ rest, s.host ≠ .idle :: rest) ∧
      waitInTurn s = s) := by
  unfold waitInTurn
  split <;> simp_all

/-- What a step does in WAIT_OUT. -/
theorem waitOutTurn_cases (s : State) :
    (∃ rest, s.host = .outAck :: rest ∧ waitOutTurn s = completeWrite { s with host := rest }) ∨
    (∃ rest, s.host = .idle :: rest ∧ waitOutTurn s = { s with host := rest }) ∨
    (s.host = [] ∧ waitOutTurn s = hostDecides s) ∨
    (s.host ≠ [] ∧ (∀ rest, s.host ≠ .outAck :: rest) ∧ (∀ rest, s.host ≠ .idle :: rest) ∧
      waitOutTurn s = s) := by
  unfold waitOutTurn
  split <;> simp_all

/-- What a step does in HALTED and FAULTED. -/
theorem terminalTurn_cases (s : State) :
    (∃ image rest, s.host = .load image :: rest ∧ imageLegal s.params image = true ∧
      terminalTurn s = loadStart image { s with host := rest }) ∨
    (∃ rest, s.host = .idle :: rest ∧ terminalTurn s = { s with host := rest }) ∨
    (s.host = [] ∧ terminalTurn s = hostDecides s) ∨
    (s.host ≠ [] ∧ (∀ image rest, s.host = .load image :: rest → imageLegal s.params image = false) ∧
      (∀ rest, s.host ≠ .idle :: rest) ∧ terminalTurn s = s) := by
  unfold terminalTurn
  split
  · split <;> simp_all
  all_goals simp_all

end Sys2Proof.Machine
end

