-- ==== Sys2Proof/Laws/PerInstr.lean ====
section
/-! SUPPORT. What holds of every instruction as syntax, one lemma per constructor. -/

namespace Sys2Proof.Laws.EncodedWord

open Sys2Proof

/-- The instruction's word is non-negative, has at most five digits, and its low two digits are the
opcode (30_encoding.md R44, R57). -/
def Statement (i : Instr) : Prop :=
  0 ≤ encode i ∧ encode i ≤ 99999 ∧ (encode i).natAbs % 100 = i.opcode

theorem add (m1 m2 m3 : Mode) : Statement (.add m1 m2 m3) := by
  cases m1 <;> cases m2 <;> cases m3 <;> exact ⟨by decide, by decide, by decide⟩

theorem multiply (m1 m2 m3 : Mode) : Statement (.multiply m1 m2 m3) := by
  cases m1 <;> cases m2 <;> cases m3 <;> exact ⟨by decide, by decide, by decide⟩

theorem read (m1 m2 m3 : Mode) : Statement (.read m1 m2 m3) := by
  cases m1 <;> cases m2 <;> cases m3 <;> exact ⟨by decide, by decide, by decide⟩

theorem write (m1 m2 m3 : Mode) : Statement (.write m1 m2 m3) := by
  cases m1 <;> cases m2 <;> cases m3 <;> exact ⟨by decide, by decide, by decide⟩

theorem jumpIfTrue (m1 m2 m3 : Mode) : Statement (.jumpIfTrue m1 m2 m3) := by
  cases m1 <;> cases m2 <;> cases m3 <;> exact ⟨by decide, by decide, by decide⟩

theorem jumpIfFalse (m1 m2 m3 : Mode) : Statement (.jumpIfFalse m1 m2 m3) := by
  cases m1 <;> cases m2 <;> cases m3 <;> exact ⟨by decide, by decide, by decide⟩

theorem lessThan (m1 m2 m3 : Mode) : Statement (.lessThan m1 m2 m3) := by
  cases m1 <;> cases m2 <;> cases m3 <;> exact ⟨by decide, by decide, by decide⟩

theorem equals (m1 m2 m3 : Mode) : Statement (.equals m1 m2 m3) := by
  cases m1 <;> cases m2 <;> cases m3 <;> exact ⟨by decide, by decide, by decide⟩

theorem halt (m1 m2 m3 : Mode) : Statement (.halt m1 m2 m3) := by
  cases m1 <;> cases m2 <;> cases m3 <;> exact ⟨by decide, by decide, by decide⟩

end Sys2Proof.Laws.EncodedWord
end

