-- ==== Sys2Proof/Laws/Step.lean ====
section
/-! SUPPORT. What one instruction and one step can do: the inversion lemmas every invariant is
derived from. -/

namespace Sys2Proof.Machine

/-- What an instruction's meaning can answer when it does not raise: it stores one word and advances
by 4, jumps or advances by 3, requests an input, requests an output, or halts. -/
inductive Committed (s t : State) : Prop where
  | stored (a : Int) (r : Word) (hp : InRange s ((s.pc + 3 : Nat) : Int)) (ha : InRange s a)
      (hr : 18 ≤ s.params.W → FitsW s.params.W r)
      (h : t = { s with mem := s.mem.set a.toNat r, pc := s.pc + 4 })
  | jumped (d : Int) (hd : 0 ≤ d) (hv : ∃ a, d = s.mem.get a) (h : t = s.setPc d.toNat)
  | fell (hp : InRange s ((s.pc + 2 : Nat) : Int)) (h : t = s.setPc (s.pc + 3))
  | requestedInput (a : Int) (hp : InRange s ((s.pc + 1 : Nat) : Int)) (ha : InRange s a)
      (hv : ∃ b, a = s.mem.get b) (h : t = { s with ioLatch := a, runState := .waitIn })
  | requestedOutput (v : Word) (hp : InRange s ((s.pc + 1 : Nat) : Int))
      (hv : ∃ b, v = s.mem.get b) (h : t = { s with ioLatch := v, runState := .waitOut })
  | halted (h : t = { s with runState := .halted })

/-- What an instruction can raise (60_exceptions.md R95). -/
inductive Raised (s : State) (e : Raise) : Prop where
  | address (a : Int) (ha : ¬ InRange s a) (h : e = ⟨.addressError, a⟩)
  | overflow (op : Nat) (hop : op = 1 ∨ op = 2) (hp : s.params.overflowPolicy = .fault)
      (h : e = ⟨.overflow, (op : Int)⟩)

theorem threeParam_finish {alu : Word → Word → Except Raise Word} {m1 m2 m3 : Mode} {s t : State}
    (hok : ∀ a b r, alu a b = .ok r → 18 ≤ s.params.W → FitsW s.params.W r)
    (herr : ∀ a b e, alu a b = .error e → Raised s e)
    (h : finish s (threeParam alu m1 m2 m3 s) = .next t) :
    Committed s t ∨ ∃ e, Raised s e ∧ t = enterFault e s := by
  rcases finish_next h with hr | ⟨e, hr, rfl⟩
  · obtain ⟨a, b, d, r, _, _, hd, hres, rfl⟩ := threeParam_ok hr
    obtain ⟨hp, hin, _⟩ := writeAddr_ok hd
    exact .inl (.stored d r hp hin (hok a b r hres) rfl)
  · rcases threeParam_error hr with ⟨a, ha, rfl⟩ | ⟨a, b, _, _, he⟩
    · exact .inr ⟨_, .address a ha rfl, rfl⟩
    · exact .inr ⟨e, herr a b e he, rfl⟩

theorem conditionalJump_finish {taken : Word → Bool} {m1 m2 : Mode} {s t : State}
    (h : finish s (conditionalJump taken m1 m2 s) = .next t) :
    Committed s t ∨ ∃ e, Raised s e ∧ t = enterFault e s := by
  rcases finish_next h with hr | ⟨e, hr, rfl⟩
  · obtain ⟨c, d, _, hd, ⟨_, hn, rfl⟩ | ⟨_, rfl⟩⟩ := conditionalJump_ok hr
    · exact .inl (.jumped d hn (readParam_ok hd).2 rfl)
    · exact .inl (.fell (readParam_ok hd).1 rfl)
  · obtain ⟨a, ha, rfl⟩ := conditionalJump_error hr
    exact .inr ⟨_, .address a ha rfl, rfl⟩

theorem arith_finish {op : Nat} (hop : op = 1 ∨ op = 2) {m1 m2 m3 : Mode} {s t : State}
    (h : finish s (threeParam (arith s.params op) m1 m2 m3 s) = .next t) :
    Committed s t ∨ ∃ e, Raised s e ∧ t = enterFault e s := by
  refine threeParam_finish (fun a b r hr hW => arith_ok (by omega) hr) (fun a b e he => ?_) h
  obtain ⟨rfl, hp, _⟩ := arith_error he
  exact .overflow op hop hp rfl

theorem compare_finish {f : Word → Word → Bool} {m1 m2 m3 : Mode} {s t : State}
    (h : finish s (threeParam (fun a b => .ok (truthWord (f a b))) m1 m2 m3 s) = .next t) :
    Committed s t ∨ ∃ e, Raised s e ∧ t = enterFault e s := by
  refine threeParam_finish (fun a b r hr hW => ?_) (fun a b e he => by cases he) h
  obtain rfl : truthWord (f a b) = r := by simpa using hr
  exact truthWord_fits hW _

/-- What `exec` can answer, over all instructions. -/
theorem exec_cases {i : Instr} {s t : State} (h : exec i s = .next t) :
    Committed s t ∨ ∃ e, Raised s e ∧ t = enterFault e s := by
  cases i with
  | add m1 m2 m3 => exact arith_finish (.inl rfl) h
  | multiply m1 m2 m3 => exact arith_finish (.inr rfl) h
  | lessThan m1 m2 m3 => exact compare_finish h
  | equals m1 m2 m3 => exact compare_finish h
  | jumpIfTrue m1 m2 m3 => exact conditionalJump_finish h
  | jumpIfFalse m1 m2 m3 => exact conditionalJump_finish h
  | halt m1 m2 m3 =>
    left
    exact .halted (by simpa [exec, execHalt] using h.symm)
  | read m1 m2 m3 =>
    simp only [exec, execRead] at h
    cases ha : writeAddr s 1 m1 with
    | error e =>
      obtain ⟨a, hin, rfl⟩ := writeAddr_error ha
      exact .inr ⟨_, .address a hin rfl, by simpa [ha] using h.symm⟩
    | ok a =>
      obtain ⟨hp, hin, hv⟩ := writeAddr_ok ha
      exact .inl (.requestedInput a hp hin ⟨_, hv⟩ (by simpa [ha] using h.symm))
  | write m1 m2 m3 =>
    simp only [exec, execWrite] at h
    cases hv : readParam s 1 m1 with
    | error e =>
      obtain ⟨a, hin, rfl⟩ := readParam_error hv
      exact .inr ⟨_, .address a hin rfl, by simpa [hv] using h.symm⟩
    | ok v =>
      obtain ⟨hp, hg⟩ := readParam_ok hv
      exact .inl (.requestedOutput v hp hg (by simpa [hv] using h.symm))

/-- What a step can do, by the execution state (40_execution_cycle.md R60, R67). -/
inductive Stepped (s t : State) : Prop where
  | ran (i : Instr) (hrun : s.runState = .running) (hf : fetchDecode s = .ok i)
      (h : exec i s = .next t)
  | fetchFault (e : Raise) (hrun : s.runState = .running) (hf : fetchDecode s = .error e)
      (h : t = enterFault e s)
  | waitedIn (hrun : s.runState = .waitIn) (h : t = waitInTurn s)
  | waitedOut (hrun : s.runState = .waitOut) (h : t = waitOutTurn s)
  | stopped (hrun : s.Terminal) (h : t = terminalTurn s)

theorem step_cases {s t : State} (h : step s = .next t) : s.legal = true ∧ Stepped s t := by
  unfold step at h
  split at h
  · refine ⟨‹_›, ?_⟩
    cases hrun : s.runState with
    | running =>
      cases hf : fetchDecode s with
      | ok i => exact .ran i hrun hf (by simpa [hrun, hf] using h)
      | error e => exact .fetchFault e hrun hf (by simpa [hrun, hf] using h.symm)
    | waitIn => exact .waitedIn hrun (by simpa [hrun] using h.symm)
    | waitOut => exact .waitedOut hrun (by simpa [hrun] using h.symm)
    | halted => exact .stopped (.inl hrun) (by simpa [hrun] using h.symm)
    | faulted => exact .stopped (.inr hrun) (by simpa [hrun] using h.symm)
  · cases h

/-- `hostMay` decides the moves the host may make (42_io.md R81). -/
theorem State.hostMay_iff {s : State} {m : HostMove} : s.hostMay m = true ↔ s.MayMove m := by
  unfold State.hostMay
  cases hr : s.runState <;> cases m <;> simp [State.MayMove, State.Terminal, hr]

/-- A step of a running core with legal parameters. -/
theorem step_running {s : State} (hl : s.legal = true) (hr : s.runState = .running) :
    step s = match fetchDecode s with
      | .ok i => exec i s
      | .error e => .next (enterFault e s) := by
  cases hf : fetchDecode s <;> simp [step, hl, hr, hf]

theorem step_waitIn {s : State} (hl : s.legal = true) (hr : s.runState = .waitIn) :
    step s = .next (waitInTurn s) := by
  unfold step
  rw [if_pos hl, hr]

theorem step_waitOut {s : State} (hl : s.legal = true) (hr : s.runState = .waitOut) :
    step s = .next (waitOutTurn s) := by
  unfold step
  rw [if_pos hl, hr]

theorem step_terminal {s : State} (hl : s.legal = true) (hr : s.Terminal) :
    step s = .next (terminalTurn s) := by
  unfold step
  rcases hr with hr | hr <;> rw [if_pos hl, hr]

end Sys2Proof.Machine
end

