-- ==== Sys2Proof/Tests/Slice0.lean ====
section
/-! SUPPORT. Tests on small states. Expected results come from the vectors of 95_test_vectors.md, named
by their ids, or from the rule a comment names. The last section holds a witness for the
hypotheses of each obligation that has any. -/

namespace Sys2Proof.Tests

open Sys2Proof Sys2Proof.Machine

/-! ### Helpers -/

/-- A core that was just loaded with an image. -/
def loaded (image : List Word) : State := { State.reset with mem := Memory.ofImage image }

/-- The same, at another `pc`. -/
def loadedAt (pc : Nat) (image : List Word) : State := { loaded image with pc := pc }

def wrapping (s : State) : State := { s with params := { s.params with overflowPolicy := .wrap } }

def strict (s : State) : State := { s with params := { s.params with strictWriteMode := true } }

def nextOf (o : Host.Outcome State Fault Refusal) : Option State :=
  match o with
  | .next s => some s
  | .fault _ => none
  | .refused _ => none

/-- The fault record after one step: code, `fault_pc`, `fault_info`. -/
def recordOf (s : State) : Option (Nat × Nat × Int) :=
  (nextOf (step s)).map (fun t => (t.faultCause.code, t.faultPc, t.faultInfo))

/-- `pc`, execution state and one cell after one step. -/
def cellOf (s : State) (a : Nat) : Option (Nat × RunState × Word) :=
  (nextOf (step s)).map (fun t => (t.pc, t.runState, t.mem.get a))

/-- `-2^63` and `2^63 - 1`, the MIN and MAX of 95_test_vectors.md. -/
def MIN : Int := -9223372036854775808

def MAX : Int := 9223372036854775807

/-! ### WellFormed: the one check, refused under strict_write_mode only (R54) -/

def strictParams : Params := { Params.default with strictWriteMode := true }

theorem test_wellFormed_strict_add :
    WellFormed strictParams (.add .position .position .immediate) = false ∧
    WellFormed Params.default (.add .position .position .immediate) = true := by decide

theorem test_wellFormed_strict_read :
    WellFormed strictParams (.read .immediate .position .position) = false ∧
    WellFormed strictParams (.read .position .immediate .immediate) = true := by decide

/-! ### Decoding: one word per constructor, written digit by digit from R44 and R47 -/

/-- `d4 d3 d2 d1 d0 = 1 0 0 0 1` (95, section 2.1). -/
theorem test_decode_add : decode Params.default 10001 = .ok (.add .position .position .immediate) := by
  decide

/-- `-1002`: the sign is dropped (95, section 2.1). -/
theorem test_decode_multiply :
    decode Params.default (-1002) = .ok (.multiply .position .immediate .position) := by decide

/-- `103` (95, section 2.1): tolerated, and refused under `strict_write_mode`. -/
theorem test_decode_read :
    decode Params.default 103 = .ok (.read .immediate .position .position) ∧
    decode strictParams 103 = .error .immediateWriteTarget := by decide

/-- `11104` (95, section 2.1). -/
theorem test_decode_write :
    decode Params.default 11104 = .ok (.write .immediate .immediate .immediate) := by decide

/-- `d3 d2 d1 d0 = 1 1 0 5` (R85). -/
theorem test_decode_jumpIfTrue :
    decode Params.default 1105 = .ok (.jumpIfTrue .immediate .immediate .position) := by decide

/-- `d3 d2 d1 d0 = 1 0 0 6` (program P2). -/
theorem test_decode_jumpIfFalse :
    decode Params.default 1006 = .ok (.jumpIfFalse .position .immediate .position) := by decide

/-- `d3 d2 d1 d0 = 1 1 0 7` (R89). -/
theorem test_decode_lessThan :
    decode Params.default 1107 = .ok (.lessThan .immediate .immediate .position) := by decide

/-- `1108` (95, section 2.1). -/
theorem test_decode_equals :
    decode Params.default 1108 = .ok (.equals .immediate .immediate .position) := by decide

/-- `11199` (95, section 2.1). -/
theorem test_decode_halt :
    decode Params.default 11199 = .ok (.halt .immediate .immediate .immediate) := by decide

/-- Illegal words (95, section 2.1), at the edges of R56. -/
theorem test_decode_illegal :
    decode Params.default 0 = .error .unknownOpcode ∧
    decode Params.default 100 = .error .unknownOpcode ∧
    decode Params.default 299 = .error .badModeDigit ∧
    decode Params.default 20004 = .error .badModeDigit ∧
    decode Params.default 100000 = .error .tooManyDigits ∧
    decode Params.default MIN = .error .tooManyDigits := by decide

theorem test_decodeTableWord :
    decodeTableWord 64 1102 = some (.multiply .immediate .immediate .position) := by decide

/-- A negative first word, in two's complement. -/
theorem test_withFetchWord_negative :
    cellOf (State.reset.withFetchWord 64 (2 ^ 64 - 99)) 0 = some (0, .halted, -99) := by decide

/-! ### One step per instruction -/

/-- A3: both operands and the target are the same cell. -/
theorem test_add_alias : cellOf (loaded [1, 5, 5, 5, 99, 21]) 5 = some (4, .running, 42) := by decide

/-- A4, under `fault` and under `wrap`. -/
theorem test_add_overflow :
    recordOf (loaded [1101, MAX, 1, 5, 99, 0]) = some (4, 0, 1) ∧
    cellOf (wrapping (loaded [1101, MAX, 1, 5, 99, 0])) 5 = some (4, .running, MIN) := by decide

/-- M1: Position and Immediate operands, a negative product. -/
theorem test_multiply_modes : cellOf (loaded [1002, 5, -3, 5, 99, 7]) 5 = some (4, .running, -21) := by
  decide

/-- M4, under `fault` and under `wrap`. -/
theorem test_multiply_overflow :
    recordOf (loaded [1102, 4294967296, 2147483648, 5, 99, 0]) = some (4, 0, 2) ∧
    cellOf (wrapping (loaded [1102, 4294967296, 2147483648, 5, 99, 0])) 5 =
      some (4, .running, MIN) := by decide

/-- K4: signed, at both ends of the range. -/
theorem test_lessThan_signed : cellOf (loaded [1107, MIN, MAX, 0, 99]) 0 = some (4, .running, 1) := by
  decide

/-- K2: equal words are not less. -/
theorem test_lessThan_equal : cellOf (loaded [1107, 5, 5, 0, 99]) 0 = some (4, .running, 0) := by decide

/-- K7: the same address twice. -/
theorem test_equals_alias : cellOf (loaded [8, 5, 5, 6, 99, 42, 0]) 6 = some (4, .running, 1) := by
  decide

/-- K6. -/
theorem test_equals_different : cellOf (loaded [1108, 7, 8, 0, 99]) 0 = some (4, .running, 0) := by
  decide

/-- J6: a negative target faults at the jump. -/
theorem test_jumpIfTrue_negative : recordOf (loaded [1105, 1, -2, 99]) = some (3, 0, -2) := by decide

/-- J8: not taken, but parameter 2 is resolved. -/
theorem test_jumpIfTrue_eager : recordOf (loaded [5, 3, 9, 0]) = some (3, 0, 9) := by decide

/-- J9: a Position target. -/
theorem test_jumpIfFalse_position :
    cellOf (loaded [6, 4, 5, 99, 0, 6, 99]) 0 = some (6, .running, 6) := by decide

/-- J5: not taken. -/
theorem test_jumpIfFalse_falls :
    cellOf (loaded [1106, -4, 4, 99, 99]) 0 = some (3, .running, 1106) := by decide

/-- I2: mode 1 on the target is ignored; under `strict_write_mode` the word is no instruction. -/
theorem test_read_mode :
    (nextOf (step (loaded [103, 3, 99, 0]))).map (fun t => (t.runState, t.ioLatch, t.pc)) =
      some (.waitIn, 3, 0) ∧
    recordOf (strict (loaded [103, 3, 99, 0])) = some (2, 0, 103) := by decide

/-- I1: the target is checked before the request. -/
theorem test_read_address : recordOf (loaded [3, 9, 99]) = some (3, 0, 9) := by decide

/-- O2: an Immediate operand, requested and not yet output. -/
theorem test_write_immediate :
    (nextOf (step (loaded [104, -5, 99]))).map (fun t => (t.request, t.outputLog)) =
      some (some (.outReq (-5)), []) := by decide

/-- O3. -/
theorem test_write_address : recordOf (loaded [4, 7, 99]) = some (3, 0, 7) := by decide

/-- E1 and E2: `pc` stays at the End. -/
theorem test_halt :
    cellOf (loaded [99]) 0 = some (0, .halted, 99) ∧
    cellOf (loaded [-99]) 0 = some (0, .halted, -99) := by decide

/-! ### Faults and priority -/

/-- F4 (the empty image), F5 and F9. -/
theorem test_fault_priority :
    recordOf (loaded []) = some (3, 0, 0) ∧
    recordOf (loaded [1, 0, 0]) = some (3, 0, 3) ∧
    recordOf (loaded [1, 7, 0, 8, 99]) = some (3, 0, 7) := by decide

/-- P5: `M` and `pc` are unchanged by a fault. -/
theorem test_fault_precise :
    (nextOf (step (loaded [1, 0, 0, 5, 99]))).map (fun t => (t.mem, t.pc, t.runState)) =
      some (Memory.ofImage [1, 0, 0, 5, 99], 0, .faulted) := by decide

/-! ### The host's moves -/

/-- A core in WAIT_IN at `pc = 0` on program P1, with the host's next moves. -/
def waitingIn (host : List HostMove) : State :=
  { loaded [3, 0, 4, 0, 99] with runState := .waitIn, host := host }

/-- A core in WAIT_OUT at `pc = 0` on image O1, holding the value 99. -/
def waitingOut (host : List HostMove) : State :=
  { loaded [4, 2, 99] with runState := .waitOut, ioLatch := 99, host := host }

/-- A halted core. -/
def haltedCore (host : List HostMove) : State :=
  { loaded [99] with runState := .halted, host := host }

/-- P1 with input -42: stored over the Read itself, and the advance is still 2. -/
theorem test_read_completes :
    cellOf (waitingIn [.answer (.value (-42))]) 0 = some (2, .running, -42) := by decide

/-- I3: one more than MAX does not fit. -/
theorem test_read_too_wide :
    recordOf (waitingIn [.answer (.value 9223372036854775808)]) = some (1, 0, 0) := by decide

/-- I5: no answer. -/
theorem test_read_unanswered : nextOf (step (waitingIn [])) = some (waitingIn []) := by decide

/-- O1. -/
theorem test_write_completes :
    (nextOf (step (waitingOut [.outAck]))).map (fun t => (t.outputLog, t.pc, t.runState)) =
      some ([99], 2, .running) := by decide

/-- R109: a load from HALTED; the cell 0 of the image is not listed. -/
theorem test_load :
    (nextOf (step (haltedCore [.load [7, 0, 9]]))).map
      (fun t => (t.mem, t.pc, t.runState, t.host)) =
      some ({ size := 3, cells := [(0, 7), (2, 9)] }, 0, .running, []) := by decide

/-- R112: an image word that does not fit is no image. -/
theorem test_load_illegal :
    nextOf (step (haltedCore [.load [MAX + 1]])) = some (haltedCore [.load [MAX + 1]]) := by decide

/-! ### Witnesses: each obligation's hypotheses are met -/

/-- Every loaded core is running, which is the premise `s.runState = .running` of the witnesses
below. -/
theorem witness_loaded_running (pc : Nat) (image : List Word) :
    (loadedAt pc image).runState = .running ∧ (loaded image).runState = .running := ⟨rfl, rfl⟩

/-- DecodeOfEncode, under both settings of `strict_write_mode`. -/
theorem witness_DecodeOfEncode :
    WellFormed strictParams (.add .immediate .immediate .position) = true ∧
    WellFormed Params.default (.read .immediate .immediate .immediate) = true := by decide

/-- IllegalWordsRaiseDecodeError: an illegal word of each of the four items of R56, and a legal one. -/
theorem witness_IllegalWordsRaiseDecodeError :
    ((loaded [100000]).legal = true ∧ memRead (loaded [100000]) 0 = .ok 100000 ∧
      IllegalWord Params.default 100000) ∧
    (memRead (loaded [0]) 0 = .ok 0 ∧ IllegalWord Params.default 0) ∧
    (memRead (loaded [299]) 0 = .ok 299 ∧ IllegalWord Params.default 299) ∧
    (memRead (strict (loaded [103])) 0 = .ok 103 ∧ IllegalWord strictParams 103) ∧
    (memRead (loaded [11199]) 0 = .ok 11199 ∧ ¬ IllegalWord Params.default 11199) :=
  ⟨⟨by decide, by decide, by decide⟩, ⟨by decide, by decide⟩, ⟨by decide, by decide⟩,
    ⟨by decide, by decide⟩, ⟨by decide, by decide⟩⟩

theorem witness_TableWordReadsBack :
    WellFormed Params.default (.equals .immediate .immediate .immediate) = true ∧
    decodeTableWord 17 (encode (.equals .immediate .immediate .immediate)).toNat =
      some (.equals .immediate .immediate .immediate) := by decide

/-- WrapIsTheCongruentWord, at the least legal width and one past its largest word. -/
theorem witness_WrapIsTheCongruentWord : wrapW 18 131072 = -131072 := by decide

/-- WriteChangesOnlyItsWord: the last address, written with 0 and with another word. -/
theorem witness_WriteChangesOnlyItsWord :
    (loaded [7, 8]).mem.wf = true ∧
    memWrite (loaded [7, 8]) 1 0 =
      .ok { loaded [7, 8] with mem := { size := 2, cells := [(0, 7)] } } ∧
    memWrite (loaded [7, 8]) 1 9 =
      .ok { loaded [7, 8] with mem := { size := 2, cells := [(0, 7), (1, 9)] } } := by decide

/-- MemoryPrimitives: both sides of both bounds. -/
theorem witness_MemoryPrimitives :
    memRead (loaded [7, 8]) (-1) = .error ⟨.addressError, -1⟩ ∧
    memRead (loaded [7, 8]) 0 = .ok 7 ∧ memRead (loaded [7, 8]) 1 = .ok 8 ∧
    memRead (loaded [7, 8]) 2 = .error ⟨.addressError, 2⟩ := by decide

/-- ReadOperandForms and WriteTargetForm: the last parameter word, one past it, and a target at each
bound. -/
theorem witness_OperandForms :
    paramWord (loaded [1, 2]) 1 = .ok 2 ∧
    paramWord (loaded [1, 2]) 2 = .error ⟨.addressError, 2⟩ ∧
    readParam (loaded [1, 1]) 1 .position = .ok 1 ∧
    writeAddr (loaded [1, 1]) 1 .immediate = .ok 1 ∧
    writeAddr (loaded [1, 2]) 1 .immediate = .error ⟨.addressError, 2⟩ ∧
    writeAddr (loaded [1, -1]) 1 .position = .error ⟨.addressError, -1⟩ := by decide

/-- ArithmeticLaw: the last sum that fits and the first that does not. -/
theorem witness_ArithmeticLaw :
    FitsW 64 (MAX + 0) ∧ ¬ FitsW 64 (MAX + 1) ∧ FitsW 64 (MIN * 1) ∧ ¬ FitsW 64 (MIN * -1) := by
  decide

/-- AddStoresTheSum, MultiplyStoresTheProduct, LessThanStoresOneOrZero, EqualsStoresOneOrZero: readable
operands and a target in range; here the target is the instruction's own word. -/
theorem witness_ThreeParameterInstructions :
    readParam (loaded [1, 5, 6, 0, 99, 3, 4]) 1 .position = .ok 3 ∧
    readParam (loaded [1, 5, 6, 0, 99, 3, 4]) 2 .position = .ok 4 ∧
    writeAddr (loaded [1, 5, 6, 0, 99, 3, 4]) 3 .position = .ok 0 ∧
    FitsW 64 (3 + 4) ∧ FitsW 64 (3 * 4) := by decide

/-- OverflowFaultsUnderFaultPolicy and OverflowWrapsUnderWrapPolicy, both clauses. -/
theorem witness_Overflow :
    readParam (loaded [1101, MAX, 2, 5, 99, 0]) 1 .immediate = .ok MAX ∧
    readParam (loaded [1101, MAX, 2, 5, 99, 0]) 2 .immediate = .ok 2 ∧
    writeAddr (loaded [1101, MAX, 2, 5, 99, 0]) 3 .position = .ok 5 ∧
    ¬ FitsW 64 (MAX + 2) ∧ ¬ FitsW 64 (MAX * 2) ∧
    (loaded []).params.overflowPolicy = .fault ∧
    (wrapping (loaded [])).params.overflowPolicy = .wrap := by decide

/-- ComparesFaultOnlyOnAddresses: a LessThan and an Equals that fault. -/
theorem witness_ComparesFaultOnlyOnAddresses :
    (nextOf (exec (.lessThan .position .position .position) (loaded [7, 0, 0]))).map
      (fun t => t.runState) = some .faulted ∧
    (nextOf (exec (.equals .position .position .position) (loaded [8, 0, 0]))).map
      (fun t => t.runState) = some .faulted := by decide

/-- ThreeParameterFrame: a store, a fault with a target that resolves (Overflow) and one without. -/
theorem witness_ThreeParameterFrame :
    writeAddr (loaded [1, 0, 0, 1]) 3 .position = .ok 1 ∧
    (nextOf (exec (.add .position .position .position) (loaded [1, 0, 0, 1]))).map
      (fun t => t.runState) = some .running ∧
    (nextOf (exec (.add .immediate .immediate .position) (loaded [1101, MAX, 1, 0]))).map
      (fun t => t.runState) = some .faulted ∧
    (nextOf (exec (.add .position .position .position) (loaded [1, 0, 0, 4]))).map
      (fun t => t.runState) = some .faulted := by decide

/-- NonStoringFrame: each of the five answers a next state that is not a fault, and a Read that
faults. -/
theorem witness_NonStoringFrame :
    (nextOf (exec (.read .position .position .position) (loaded [3, 0]))).map
      (fun t => t.runState) = some .waitIn ∧
    (nextOf (exec (.write .position .position .position) (loaded [4, 0]))).map
      (fun t => t.runState) = some .waitOut ∧
    (nextOf (exec (.jumpIfTrue .position .position .position) (loaded [5, 0, 0]))).map
      (fun t => t.pc) = some 5 ∧
    (nextOf (exec (.jumpIfFalse .position .position .position) (loaded [6, 0, 0]))).map
      (fun t => t.pc) = some 3 ∧
    (nextOf (exec (.halt .position .position .position) (loaded [99]))).map
      (fun t => t.runState) = some .halted ∧
    (nextOf (exec (.read .position .position .position) (loaded [3]))).map
      (fun t => t.runState) = some .faulted := by decide

/-- JumpIfTrueRule, JumpIfFalseRule: a condition on each side, and the target 0. -/
theorem witness_JumpRules :
    readParam (loaded [1105, 1, 0]) 1 .immediate = .ok 1 ∧
    readParam (loaded [1105, 1, 0]) 2 .immediate = .ok 0 ∧
    readParam (loaded [1105, 0, 0]) 1 .immediate = .ok 0 ∧
    readParam (loaded [1106, -1, 0]) 1 .immediate = .ok (-1) := by decide

/-- TakenJumpOutsideMemory: the target -1 and the target `N`, for both jumps. -/
theorem witness_TakenJumpOutsideMemory :
    (loaded [1105, 1, -1]).legal = true ∧
    readParam (loaded [1105, 1, -1]) 1 .immediate = .ok 1 ∧
    readParam (loaded [1105, 1, -1]) 2 .immediate = .ok (-1) ∧
    readParam (loaded [1106, 0, 3]) 1 .immediate = .ok 0 ∧
    readParam (loaded [1106, 0, 3]) 2 .immediate = .ok 3 ∧
    (loaded [1106, 0, 3]).mem.size = 3 := by decide

/-- ReadRequestsInput, WriteRequestsOutput. -/
theorem witness_Requests :
    writeAddr (loaded [3, 1]) 1 .position = .ok 1 ∧
    readParam (loaded [104, 7]) 1 .immediate = .ok 7 := by decide

/-- ReadCompletesWithTheValue: the largest word, at the last address. -/
theorem witness_ReadCompletesWithTheValue :
    ({ waitingIn [.answer (.value MAX)] with ioLatch := 4 }).legal = true ∧
    ({ waitingIn [.answer (.value MAX)] with ioLatch := 4 }).host = [.answer (.value MAX)] ∧
    ({ waitingIn [.answer (.value MAX)] with ioLatch := 4 }).runState = .waitIn ∧
    FitsW 64 MAX ∧ InRange ({ waitingIn [.answer (.value MAX)] with ioLatch := 4 }) 4 := by decide

/-- MalformedInputTakesParseError: both kinds of answer. -/
theorem witness_MalformedInputTakesParseError :
    (waitingIn [.answer .malformed]).legal = true ∧
    (waitingIn [.answer .malformed]).runState = .waitIn ∧
    (waitingIn [.answer (.value (MAX + 1))]).legal = true ∧
    ¬ FitsW (waitingIn [.answer (.value (MAX + 1))]).params.W (MAX + 1) := by decide

/-- WriteCompletesOnOutAck, UnansweredRequestStaysOutstanding: an acknowledgement, no move, an answer to
the other channel, and one idle step. -/
theorem witness_WaitOut :
    (waitingOut [.outAck]).legal = true ∧ (waitingOut []).runState = .waitOut ∧
    (waitingOut [.answer .malformed]).host.head? ≠ some .outAck ∧
    (waitingOut [.idle]).Waiting ∧ (waitingIn [.outAck]).host.head? = some .outAck := by decide

/-- A host that answers every request, with 7 and 8 in turn. -/
def answeringHost (s : State) : State :=
  { s with hostRest := .answering (.value 7) [.value 8] }

/-- R77, R81: the answering host gives 7, then has 8 next; P1 stores the 7 at 0. -/
theorem test_answering_host :
    ((answeringHost (waitingIn [])).after 2).mem.get 0 = 7 ∧
    ((answeringHost (waitingIn [])).after 2).runState = .running ∧
    ((answeringHost (waitingIn [])).after 2).hostRest = .answering (.value 8) [.value 7] := by decide

/-- AnsweringHostAnswersTheRequest, AnsweringHostAnswersEveryRequest: both kinds of wait. -/
theorem witness_AnsweringHost :
    (answeringHost (waitingIn [])).legal = true ∧ (answeringHost (waitingIn [])).host = [] ∧
    (answeringHost (waitingIn [])).runState = .waitIn ∧
    (answeringHost (waitingOut [])).legal = true ∧ (answeringHost (waitingOut [])).host = [] ∧
    (answeringHost (waitingOut [])).runState = .waitOut ∧
    ((answeringHost (waitingOut [])).after 2).outputLog = [99] := by decide

/-- SilentHostLeavesTheCoreWaiting: vectors I5 and O5. -/
theorem witness_SilentHost :
    (waitingIn []).legal = true ∧ (waitingIn []).Waiting ∧ (waitingIn []).host = [] ∧
    (waitingIn []).hostRest = .silent ∧ (waitingIn []).after 2 = waitingIn [] ∧
    (waitingOut []).Waiting ∧ (waitingOut []).after 2 = waitingOut [] := by decide

/-- A host nothing is assumed about. -/
def freeHost (s : State) : State := { s with hostRest := .free }

/-- FreeHostMakesOnlyMovesItMay: a core in each state the host may move in, and a move of each kind. -/
theorem witness_FreeHost :
    (freeHost (waitingIn [])).legal = true ∧ (freeHost (waitingIn [])).host = [] ∧
    (freeHost (waitingIn [])).MayMove (.answer .malformed) ∧
    (freeHost (waitingOut [])).MayMove .outAck ∧
    ¬ (freeHost (waitingOut [])).MayMove (.answer .malformed) ∧
    (freeHost (haltedCore [])).MayMove (.load [MAX]) ∧
    ¬ (freeHost (haltedCore [])).MayMove (.load [MAX + 1]) := by
  refine ⟨by decide, rfl, .inl ⟨rfl, .inr ⟨_, rfl⟩⟩, .inr (.inl ⟨rfl, .inr rfl⟩), ?_,
    .inr (.inr ⟨.inl rfl, .inr ⟨_, rfl, by decide⟩⟩), ?_⟩
  · simp [freeHost, waitingOut]
  · rintro (⟨h, _⟩ | ⟨h, _⟩ | ⟨_, h | ⟨image, h, hl⟩⟩)
    · cases h
    · cases h
    · cases h
    · cases h
      exact absurd hl (by decide)

/-- HistoryGrowsOnlyByCompletions, ParametersAndSizeAreFixedForARun, StepKeepsTheInvariant,
LatchIsNotObservable: a step from each kind of state. -/
theorem witness_Steps :
    (nextOf (step (loaded [3, 0, 4, 0, 99]))).isSome ∧
    (nextOf (step (waitingIn [.answer (.value 1)]))).map (fun t => t.inputLog) =
      some [.value 1] ∧
    (nextOf (step (waitingOut [.outAck]))).map (fun t => t.outputLog) = some [99] ∧
    (nextOf (step (haltedCore [.idle]))).map (fun t => t.runState) = some .halted ∧
    (nextOf (step { haltedCore [.load [7]] with outputLog := [99] })).map
      (fun t => (t.runState, t.outputLog)) = some (.running, []) := by decide

/-- StepKeepsTheInvariant: states of each kind that meet the invariant. -/
theorem witness_Inv_running : (loaded [3, 0, 4, 0, 99]).Inv := by decide

theorem witness_Inv_waitIn : (waitingIn [.answer (.value 1)]).Inv := by decide

theorem witness_Inv_waitOut : (waitingOut [.outAck]).Inv := by decide

theorem witness_Inv_halted : (haltedCore [.load [99]]).Inv := by decide

theorem witness_Inv_faulted :
    ({ loaded [0] with
      runState := .faulted, faultCause := .decodeError, faultPc := 0, faultInfo := 0 }).Inv := by decide

/-- LatchIsNotObservable: two states that differ in the latch, and both step. -/
theorem witness_LatchIsNotObservable :
    SameButLatch (loaded [99]) { loaded [99] with ioLatch := 5, freeIndex := 1 } ∧
    (nextOf (step (loaded [99]))).isSome ∧
    (nextOf (step { loaded [99] with ioLatch := 5, freeIndex := 1 })).isSome :=
  ⟨⟨rfl, rfl, rfl, rfl, rfl, rfl, rfl, rfl, rfl, rfl, rfl, rfl, by decide⟩, by decide, by decide⟩

/-- LoadForgetsTheEarlierRun: a halted core and a faulted one with other memories, the same parameters
and the same load ahead. -/
theorem witness_LoadForgetsTheEarlierRun :
    (haltedCore [.load [7]]).Terminal ∧
    ({ loaded [0, 5] with runState := .faulted, host := [.load [7]] }).Terminal ∧
    (haltedCore [.load [7]]).params = (loaded [0, 5]).params ∧
    (haltedCore [.load [7]]).hostRest = (loaded [0, 5]).hostRest ∧
    (haltedCore [.load [7]]).hostIndex = (loaded [0, 5]).hostIndex ∧
    imageLegal (haltedCore []).params [7] = true ∧
    (nextOf (step (haltedCore [.load [7]]))).isSome ∧
    (nextOf (step { loaded [0, 5] with runState := .faulted, host := [.load [7]] })).isSome := by
  decide

/-- TerminalStatesAreLeftOnlyByLoad: no move, one idle step, a load. -/
theorem witness_TerminalStatesAreLeftOnlyByLoad :
    (haltedCore []).Terminal ∧ nextOf (step (haltedCore [])) = some (haltedCore []) ∧
    nextOf (step (haltedCore [.idle])) = some (haltedCore []) ∧
    (nextOf (step (haltedCore [.load [99]]))).map (fun t => t.runState) = some .running := by decide

/-- FaultsArePrecise, FaultCausesAndInfos: a step into FAULTED of each cause a running core takes. -/
theorem witness_Faults :
    (nextOf (step (loaded [12, 0, 0, 0, 99]))).map (fun t => t.runState) = some .faulted ∧
    recordOf (loaded [12, 0, 0, 0, 99]) = some (2, 0, 12) ∧
    recordOf (loaded [1, -1, 0, 0, 99]) = some (3, 0, -1) ∧
    recordOf (loaded [1101, MIN, -1, 5, 99, 0]) = some (4, 0, 1) ∧
    ¬ FitsW 64 (MIN + -1) ∧
    recordOf (loaded [1102, MIN, -1, 5, 99, 0]) = some (4, 0, 2) ∧
    ¬ FitsW 64 (MIN * -1) := by decide

/-- FirstUnresolvedParameterFaults: each parameter in turn is the first that does not resolve. -/
theorem witness_FirstUnresolvedParameterFaults :
    readParam (loaded [1, 9, 0, 0]) 1 .position = .error ⟨.addressError, 9⟩ ∧
    readParam (loaded [1, 0, 9, 0]) 1 .position = .ok 1 ∧
    readParam (loaded [1, 0, 9, 0]) 2 .position = .error ⟨.addressError, 9⟩ ∧
    readParam (loaded [1, 0, 0, 9]) 2 .position = .ok 1 ∧
    writeAddr (loaded [1, 0, 0, 9]) 3 .position = .error ⟨.addressError, 9⟩ ∧
    writeAddr (loaded [3]) 1 .position = .error ⟨.addressError, 1⟩ := by decide

/-- StepRunsTheDecodedInstruction, FetchReadsTheWordAtPc: the last address and one past it. -/
theorem witness_Fetch :
    (loadedAt 4 [1, 0, 0, 0, 99]).legal = true ∧
    memRead (loadedAt 4 [1, 0, 0, 0, 99]) 4 = .ok 99 ∧
    decode Params.default 99 = .ok (.halt .position .position .position) ∧
    recordOf (loadedAt 5 [1, 0, 0, 0, 99]) = some (3, 5, 5) := by decide

/-- ProgramCounterUpdate: a taken and an untaken jump, a completion. -/
theorem witness_ProgramCounterUpdate :
    (nextOf (step (loaded [1105, 1, 7, 99, 0, 0, 0, 99]))).map (fun t => t.pc) = some 7 ∧
    (nextOf (step (loaded [1105, 0, 7, 99, 0, 0, 0, 99]))).map (fun t => t.pc) = some 3 ∧
    (nextOf (step (waitingOut [.outAck]))).map (fun t => (t.pc, t.runState)) =
      some (2, .running) := by decide

/-- StoredWordIsTheNextInstruction: program P4. -/
theorem witness_StoredWordIsTheNextInstruction :
    (loaded [1101, 1, 98, 4, 0]).legal = true ∧ (loaded [1101, 1, 98, 4, 0]).mem.wf = true ∧
    decode Params.default (1 + 98) = .ok (.halt .position .position .position) ∧
    readParam (loaded [1101, 1, 98, 4, 0]) 1 .immediate = .ok 1 ∧
    readParam (loaded [1101, 1, 98, 4, 0]) 2 .immediate = .ok 98 ∧
    writeAddr (loaded [1101, 1, 98, 4, 0]) 3 .position = .ok 4 ∧ FitsW 64 (1 + 98) ∧
    cellOf (loaded [1101, 1, 98, 4, 0]) 4 = some (4, .running, 99) := by decide

/-- EveryLegalStepAnswersANextState: the least legal width, and one below it. -/
theorem witness_EveryLegalStep :
    ({ loaded [99] with params := { Params.default with W := 18 } }).legal = true ∧
    ({ loaded [99] with params := { Params.default with W := 17 } }).legal = false := by decide

/-- LoadSetsEveryField: a stopped core and a legal image. -/
theorem witness_LoadSetsEveryField :
    (haltedCore [.load [MIN, MAX]]).legal = true ∧ (haltedCore [.load [MIN, MAX]]).Terminal ∧
    (haltedCore [.load [MIN, MAX]]).host = [.load [MIN, MAX]] ∧
    imageLegal Params.default [MIN, MAX] = true ∧ imageLegal Params.default [] = true := by decide

/-- PlacedWordIsTheNextInstruction: the reset state, an Add of zeros. -/
theorem witness_PlacedWordIsTheNextInstruction :
    State.reset.legal = true ∧ State.reset.mem.wf = true ∧
    State.reset.pc + 4 ≤ halfRange State.reset.params.W ∧
    decode Params.default (tableWord 64 (1 % 2 ^ 64) 0) =
      .ok (.add .position .position .position) ∧
    cellOf (State.reset.withFetchWord 64 1) 0 = some (4, .running, 2) := by decide

end Sys2Proof.Tests
end

