-- ==== Sys2Proof/Proofs/Memory.lean ====
section
/-! The access primitives (20_memory.md R33, R34). -/

namespace Sys2Proof.Machine

theorem memWrite_outOfRange {s : State} {a : Int} (v : Word) (h : ¬ InRange s a) :
    memWrite s a v = .error ⟨.addressError, a⟩ := by
  unfold memWrite
  rw [if_pos (by omega)]

/-- Settles O9: the address is in range or it is not, and each primitive has one law per side. -/
theorem memoryPrimitives : Obligations.MemoryPrimitives := by
  intro s a v
  constructor
  · intro hout
    have hr : ¬ InRange s a := by omega
    exact ⟨memRead_outOfRange hr, memWrite_outOfRange v hr⟩
  · intro hin
    have hr : InRange s a := by omega
    exact ⟨memRead_inRange hr, memWrite_inRange v hr⟩

end Sys2Proof.Machine
end

