-- ==== Sys2Proof/Proofs/Encoding.lean ====
section
/-! Decode, fetch and operand resolution (30_encoding.md R44 to R56). -/

namespace Sys2Proof

open Sys2Proof.Machine

theorem Mode.digit_eq_one {m : Mode} : m.digit = 1 ↔ m = .immediate := by
  cases m <;> decide

theorem Mode.digit_le_one (m : Mode) : m.digit ≤ 1 := by
  cases m <;> decide

theorem Instr.opcode_mem (i : Instr) : i.opcode ∈ [1, 2, 3, 4, 5, 6, 7, 8, 99] := by
  cases i <;> simp [Instr.opcode]

/-- A constructor of the opcode map builds an instruction of that opcode with the modes it is
given (R44, R47). -/
theorem opcode_and_modes_of_constructorOf {op : Nat} {mk : Mode → Mode → Mode → Instr}
    (h : constructorOf op = some mk) (m1 m2 m3 : Mode) :
    (mk m1 m2 m3).opcode = op ∧ (mk m1 m2 m3).modes = (m1, m2, m3) := by
  unfold constructorOf at h
  repeat' split at h
  case isFalse => cases h
  all_goals
    cases h
    exact ⟨Eq.symm ‹_›, rfl⟩

/-- The target mode in terms of the fields of the word (R54, R56 item 4). -/
theorem Instr.targetMode_eq_immediate {i : Instr} :
    i.targetMode = some .immediate ↔
      (i.opcode ∈ [1, 2, 7, 8] ∧ i.modes.2.2.digit = 1) ∨
        (i.opcode = 3 ∧ i.modes.1.digit = 1) := by
  cases i <;> simp [Instr.targetMode, Instr.opcode, Instr.modes, Mode.digit_eq_one]

/-- The fields of `w` are the opcode and the modes of `i` (R44, R46). -/
abbrev FieldsOf (w : Word) (i : Instr) : Prop :=
  HasFields w i.opcode i.modes.1 i.modes.2.1 i.modes.2.2

/-- The fields of a word read through the decoder's own parts. -/
theorem fieldsOf_iff {w : Word} {i : Instr} :
    FieldsOf w i ↔ w.natAbs ≤ 99999 ∧
      ∃ mk m1 m2 m3, constructorOf (w.natAbs % 100) = some mk ∧
        modesOf w.natAbs = some (m1, m2, m3) ∧ i = mk m1 m2 m3 := by
  constructor
  · rintro ⟨hw, hop, hmodes⟩
    obtain ⟨mk, hmk, hi⟩ := constructorOf_opcode i
    exact ⟨hw, mk, _, _, _, hop ▸ hmk, modesOf_eq_some.mpr hmodes, hi.symm⟩
  · rintro ⟨hw, mk, m1, m2, m3, hmk, hm, rfl⟩
    obtain ⟨hop, hmodes⟩ := opcode_and_modes_of_constructorOf hmk m1 m2 m3
    rw [FieldsOf, hop, hmodes]
    exact ⟨hw, rfl, modesOf_eq_some.mp hm⟩

/-- `Decode(w)` answers `i` exactly when the fields of `w` are those of `i` and `i` passes the strict
check (R51). -/
theorem decode_eq_ok {p : Params} {w : Word} {i : Instr} :
    decode p w = .ok i ↔ FieldsOf w i ∧ WellFormed p i = true := by
  constructor
  · intro h
    obtain ⟨hw, hwf, hparts⟩ := decode_ok h
    exact ⟨fieldsOf_iff.mpr ⟨hw, hparts⟩, hwf⟩
  · rintro ⟨hf, hwf⟩
    obtain ⟨hw, mk, m1, m2, m3, hmk, hm, rfl⟩ := fieldsOf_iff.mp hf
    simp [decode, Nat.not_lt.mpr hw, hmk, hm, hwf]

/-- The strict check never rejects an instruction that has no write target. -/
theorem decode_eq_ok_of_no_target {p : Params} {w : Word} {i : Instr} (ht : i.targetMode = none) :
    decode p w = .ok i ↔ FieldsOf w i := by
  simp [decode_eq_ok, wellFormed_iff, ht]

/-- The strict check rejects an instruction whose write target is in Immediate mode (R54). -/
theorem decode_eq_ok_of_target {p : Params} {w : Word} {i : Instr} {m : Mode}
    (ht : i.targetMode = some m) :
    decode p w = .ok i ↔ FieldsOf w i ∧ ¬(p.strictWriteMode = true ∧ m = .immediate) := by
  simp only [decode_eq_ok, wellFormed_iff, ht, Option.some.injEq]

/-- Settles O1: one law for the opcodes with a write target, one for those without. -/
theorem decodeReadsTheDecimalFields : Obligations.DecodeReadsTheDecimalFields := by
  intro p w m1 m2 m3
  exact ⟨decode_eq_ok_of_target rfl, decode_eq_ok_of_target rfl, decode_eq_ok_of_target rfl,
    decode_eq_ok_of_no_target rfl, decode_eq_ok_of_no_target rfl, decode_eq_ok_of_no_target rfl,
    decode_eq_ok_of_target rfl, decode_eq_ok_of_target rfl, decode_eq_ok_of_no_target rfl⟩

/-! ### The illegal words (R56) -/

/-- Items 1 to 3 of R56 are the only words that are the fields of no instruction. -/
theorem exists_fieldsOf {w : Word} (hw : ¬ 99999 < w.natAbs)
    (hop : ¬ w.natAbs % 100 ∉ [1, 2, 3, 4, 5, 6, 7, 8, 99])
    (hm : ¬(1 < w.natAbs / 100 % 10 ∨ 1 < w.natAbs / 1000 % 10 ∨ 1 < w.natAbs / 10000 % 10)) :
    ∃ i, FieldsOf w i := by
  rw [← constructorOf_eq_none] at hop
  obtain ⟨mk, hmk⟩ := Option.ne_none_iff_exists'.mp hop
  obtain ⟨⟨m1, m2, m3⟩, hmodes⟩ := Option.ne_none_iff_exists'.mp (mt modesOf_eq_none.mp hm)
  exact ⟨_, fieldsOf_iff.mpr ⟨by omega, mk, m1, m2, m3, hmk, hmodes, rfl⟩⟩

/-- A word with the fields of an instruction is illegal exactly by the strict check, item 4 of
R56. -/
theorem illegalWord_of_fieldsOf {p : Params} {w : Word} {i : Instr} (h : FieldsOf w i) :
    IllegalWord p w ↔ ¬ WellFormed p i = true := by
  obtain ⟨hw, hop, h1, h2, h3⟩ := h
  rw [wellFormed_iff, not_not, Instr.targetMode_eq_immediate, IllegalWord, hop, h1, h2, h3]
  simp [Nat.not_lt.mpr hw, i.opcode_mem, Nat.not_lt.mpr (Mode.digit_le_one _),
    -List.mem_cons]

/-- R56: the illegal words are exactly those that decode to no instruction. -/
theorem not_illegalWord_iff {p : Params} {w : Word} :
    ¬ IllegalWord p w ↔ ∃ i, decode p w = .ok i := by
  constructor
  · intro h
    have hparts := h
    simp only [IllegalWord, not_or] at hparts
    obtain ⟨hw, hop, hm, -⟩ := hparts
    obtain ⟨i, hi⟩ := exists_fieldsOf hw hop (by omega)
    have hwf : WellFormed p i = true := not_not.mp (mt (illegalWord_of_fieldsOf hi).mpr h)
    exact ⟨i, decode_eq_ok.mpr ⟨hi, hwf⟩⟩
  · rintro ⟨i, hi⟩ hill
    obtain ⟨hf, hwf⟩ := decode_eq_ok.mp hi
    exact (illegalWord_of_fieldsOf hf).mp hill hwf

/-- The sign is dropped before anything is read (R45). -/
theorem decode_natAbs (p : Params) (w : Word) : decode p w = decode p (w.natAbs : Int) := by
  simp only [decode, Int.natAbs_natCast]

/-- Settles O4: the decoder reads nothing of a word but its absolute value. -/
theorem decodeDropsTheSign : Obligations.DecodeDropsTheSign :=
  ⟨decode_natAbs, rfl⟩

namespace Machine

/-! ### Fetch and operands -/

/-- A fetched word that decodes is the instruction to run (R62). -/
theorem fetchDecode_of_decode_ok {s : State} {w : Word} {i : Instr}
    (hw : memRead s (s.pc : Int) = .ok w) (hi : decode s.params w = .ok i) :
    fetchDecode s = .ok i := by
  simp [fetchDecode, hw, hi]

/-- A fetched word that does not decode raises DecodeError with that word (R56). -/
theorem fetchDecode_of_decode_error {s : State} {w : Word} {r : Reject}
    (hw : memRead s (s.pc : Int) = .ok w) (hr : decode s.params w = .error r) :
    fetchDecode s = .error ⟨.decodeError, w⟩ := by
  simp [fetchDecode, hw, hr]

/-- Settles O2: the illegal words are the ones that do not decode, and fetch turns each into
DecodeError. -/
theorem illegalWordsRaiseDecodeError : Obligations.IllegalWordsRaiseDecodeError := by
  intro s w hl hrun hw
  rw [step_running hl hrun, not_illegalWord_iff]
  cases hd : decode s.params w with
  | ok i =>
    rw [fetchDecode_of_decode_ok hw hd]
    have hlegal : ¬ IllegalWord s.params w := not_illegalWord_iff.mpr ⟨i, hd⟩
    exact ⟨fun hill => absurd hill hlegal, fun _ => ⟨i, rfl, rfl⟩⟩
  | error r =>
    rw [fetchDecode_of_decode_error hw hd]
    exact ⟨fun _ => rfl, fun ⟨i, hi⟩ => by cases hi⟩

theorem readParam_of_paramWord_error {s : State} {i : Nat} {e : Raise}
    (h : paramWord s i = .error e) (m : Mode) : readParam s i m = .error e := by
  simp [readParam, h]

theorem readParam_immediate {s : State} {i : Nat} {p : Word} (h : paramWord s i = .ok p) :
    readParam s i .immediate = .ok p := by
  simp [readParam, h]

theorem readParam_position {s : State} {i : Nat} {p : Word} (h : paramWord s i = .ok p) :
    readParam s i .position = memRead s p := by
  simp [readParam, h]

/-- Settles O11: the parameter word faults, or it is the operand or the operand's address. -/
theorem readOperandForms : Obligations.ReadOperandForms := by
  intro s i
  exact ⟨fun _ m h => readParam_of_paramWord_error h m,
    fun _ h => ⟨readParam_immediate h, readParam_position h⟩⟩

end Machine

end Sys2Proof
end

