-- ==== Sys2Proof/Proofs/Cycle.lean ====
section
/-! The execution cycle: fetch, the order in which parameters are resolved, and `pc`
(40_execution_cycle.md R61, R63, R66). -/

namespace Sys2Proof.Machine

/-! ### The shapes of the instructions -/

/-- The instructions of format F3 differ in nothing but what they compute (R67). -/
theorem exec_threeParam {mk : Mode → Mode → Mode → Instr} (hmk : mk ∈ threeParamInstrs)
    (s : State) :
    ∃ alu, ∀ m1 m2 m3, exec (mk m1 m2 m3) s = finish s (threeParam alu m1 m2 m3 s) := by
  simp only [threeParamInstrs, List.mem_cons, List.not_mem_nil, or_false] at hmk
  obtain rfl | rfl | rfl | rfl := hmk
  all_goals exact ⟨_, fun _ _ _ => rfl⟩

/-- The jumps differ in nothing but when they are taken (R85, R87). -/
theorem exec_jump {mk : Mode → Mode → Mode → Instr} (hmk : mk ∈ jumpInstrs) :
    ∃ taken : Word → Bool, ∀ m1 m2 m3,
      (∀ s, exec (mk m1 m2 m3) s = finish s (conditionalJump taken m1 m2 s)) ∧
      ∀ c, taken c = true ↔
        (mk m1 m2 m3 = .jumpIfTrue m1 m2 m3 ∧ c ≠ 0) ∨
          (mk m1 m2 m3 = .jumpIfFalse m1 m2 m3 ∧ c = 0) := by
  simp only [jumpInstrs, List.mem_cons, List.not_mem_nil, or_false] at hmk
  obtain rfl | rfl := hmk
  · exact ⟨_, fun _ _ _ => ⟨fun _ => rfl, by simp [isNonzero]⟩⟩
  · exact ⟨_, fun _ _ _ => ⟨fun _ => rfl, by simp [isNonzero]⟩⟩

theorem exec_read_of_writeAddr_error {m1 m2 m3 : Mode} {s : State} {e : Raise}
    (h : writeAddr s 1 m1 = .error e) : exec (.read m1 m2 m3) s = .next (enterFault e s) := by
  simp [exec, execRead, h]

theorem exec_read_of_writeAddr_ok {m1 m2 m3 : Mode} {s : State} {a : Word}
    (h : writeAddr s 1 m1 = .ok a) :
    exec (.read m1 m2 m3) s = .next { s with ioLatch := a, runState := .waitIn } := by
  simp [exec, execRead, h]

theorem exec_write_of_readParam_error {m1 m2 m3 : Mode} {s : State} {e : Raise}
    (h : readParam s 1 m1 = .error e) : exec (.write m1 m2 m3) s = .next (enterFault e s) := by
  simp [exec, execWrite, h]

theorem exec_write_of_readParam_ok {m1 m2 m3 : Mode} {s : State} {v : Word}
    (h : readParam s 1 m1 = .ok v) :
    exec (.write m1 m2 m3) s = .next { s with ioLatch := v, runState := .waitOut } := by
  simp [exec, execWrite, h]

theorem exec_halt (m1 m2 m3 : Mode) (s : State) :
    exec (.halt m1 m2 m3) s = .next { s with runState := .halted } := rfl

/-- An instruction that does not fault has committed. -/
theorem finish_next_not_faulted {s t : State} {r : Except Raise State}
    (h : finish s r = .next t) (ht : t.runState ≠ .faulted) : r = .ok t := by
  rcases finish_next h with hr | ⟨e, -, rfl⟩
  · exact hr
  · exact absurd (enterFault_runState e s) ht

/-! ### The order of resolution (R63) -/

section
variable {alu : Word → Word → Except Raise Word} {taken : Word → Bool} {m1 m2 m3 : Mode} {s : State}
  {a b : Word} {e : Raise}

theorem threeParam_of_first_error (h1 : readParam s 1 m1 = .error e) :
    threeParam alu m1 m2 m3 s = .error e := by
  simp [threeParam, h1]

theorem threeParam_of_second_error (h1 : readParam s 1 m1 = .ok a)
    (h2 : readParam s 2 m2 = .error e) : threeParam alu m1 m2 m3 s = .error e := by
  simp [threeParam, h1, h2]

theorem threeParam_of_target_error (h1 : readParam s 1 m1 = .ok a)
    (h2 : readParam s 2 m2 = .ok b) (h3 : writeAddr s 3 m3 = .error e) :
    threeParam alu m1 m2 m3 s = .error e := by
  simp [threeParam, h1, h2, h3]

theorem conditionalJump_of_first_error (h1 : readParam s 1 m1 = .error e) :
    conditionalJump taken m1 m2 s = .error e := by
  simp [conditionalJump, h1]

/-- The target of a jump is resolved whether the jump is taken or not. -/
theorem conditionalJump_of_second_error (h1 : readParam s 1 m1 = .ok a)
    (h2 : readParam s 2 m2 = .error e) : conditionalJump taken m1 m2 s = .error e := by
  simp [conditionalJump, h1, h2]

end

/-- Settles O38: each shape stops at the first parameter that raises, and the instruction takes what
its shape raises. -/
theorem firstUnresolvedParameterFaults : Obligations.FirstUnresolvedParameterFaults := by
  intro m1 m2 m3 s
  refine ⟨fun mk hmk e h1 => ?first, fun mk hmk a e h1 h2 => ?second,
    fun mk hmk a b e h1 h2 h3 => ?target, fun e h => exec_read_of_writeAddr_error h⟩
  case first =>
    simp only [List.mem_append, List.mem_singleton] at hmk
    obtain (hmk | hmk) | rfl := hmk
    · obtain ⟨alu, hexec⟩ := exec_threeParam hmk s
      rw [hexec, threeParam_of_first_error h1, finish_error]
    · obtain ⟨taken, hjump⟩ := exec_jump hmk
      rw [(hjump m1 m2 m3).1, conditionalJump_of_first_error h1, finish_error]
    · exact exec_write_of_readParam_error h1
  case second =>
    obtain hmk | hmk := List.mem_append.mp hmk
    · obtain ⟨alu, hexec⟩ := exec_threeParam hmk s
      rw [hexec, threeParam_of_second_error h1 h2, finish_error]
    · obtain ⟨taken, hjump⟩ := exec_jump hmk
      rw [(hjump m1 m2 m3).1, conditionalJump_of_second_error h1 h2, finish_error]
  case target =>
    obtain ⟨alu, hexec⟩ := exec_threeParam hmk s
    rw [hexec, threeParam_of_target_error h1 h2 h3, finish_error]

/-! ### What happens to `pc` (R66) -/

theorem exec_threeParam_pc {mk : Mode → Mode → Mode → Instr} (hmk : mk ∈ threeParamInstrs)
    {m1 m2 m3 : Mode} {s t : State} (h : exec (mk m1 m2 m3) s = .next t)
    (ht : t.runState ≠ .faulted) : t.pc = s.pc + 4 := by
  obtain ⟨alu, hexec⟩ := exec_threeParam hmk s
  rw [hexec] at h
  obtain ⟨a, b, d, r, -, -, -, -, rfl⟩ := threeParam_ok (finish_next_not_faulted h ht)
  rfl

/-- A jump that commits goes to its target when it is taken and past itself when it is not. -/
theorem conditionalJump_pc {taken : Word → Bool} {m1 m2 : Mode} {s t : State}
    (h : conditionalJump taken m1 m2 s = .ok t) :
    ∃ c d, readParam s 1 m1 = .ok c ∧ readParam s 2 m2 = .ok d ∧
      if taken c = true then (t.pc : Int) = d else t.pc = s.pc + 3 := by
  obtain ⟨c, d, hc, hd, ⟨htaken, hnonneg, rfl⟩ | ⟨hfell, rfl⟩⟩ := conditionalJump_ok h
  · refine ⟨c, d, hc, hd, ?_⟩
    rw [if_pos htaken]
    exact Int.toNat_of_nonneg hnonneg
  · refine ⟨c, d, hc, hd, ?_⟩
    rw [hfell]
    rfl

/-- The request phase of a Read leaves `pc`, also when its target raises (R76). -/
theorem exec_read_pc {m1 m2 m3 : Mode} {s t : State} (h : exec (.read m1 m2 m3) s = .next t) :
    t.pc = s.pc := by
  cases ha : writeAddr s 1 m1 with
  | error e =>
    rw [exec_read_of_writeAddr_error ha] at h
    cases h
    rfl
  | ok a =>
    rw [exec_read_of_writeAddr_ok ha] at h
    cases h
    rfl

/-- The request phase of a Write leaves `pc`, also when its operand raises (R79). -/
theorem exec_write_pc {m1 m2 m3 : Mode} {s t : State} (h : exec (.write m1 m2 m3) s = .next t) :
    t.pc = s.pc := by
  cases hv : readParam s 1 m1 with
  | error e =>
    rw [exec_write_of_readParam_error hv] at h
    cases h
    rfl
  | ok v =>
    rw [exec_write_of_readParam_ok hv] at h
    cases h
    rfl

/-- A Read's completion either runs on, past the Read, or faults (R77, R78). -/
theorem completeRead_pc_of_running {a : InAnswer} {s : State}
    (h : (completeRead a s).runState = .running) : (completeRead a s).pc = s.pc + 2 := by
  obtain ⟨v, -, -, -, heq⟩ | ⟨-, heq⟩ | ⟨-, heq⟩ := completeRead_cases a s
  · rw [heq]
  · simp [heq] at h
  · simp [heq] at h

/-- Only the completion of the Read takes a core out of WAIT_IN to RUNNING. -/
theorem waitInTurn_pc_of_running {s : State} (hs : s.runState = .waitIn)
    (h : (waitInTurn s).runState = .running) : (waitInTurn s).pc = s.pc + 2 := by
  obtain ⟨a, rest, -, heq⟩ | ⟨rest, -, heq⟩ | ⟨-, heq⟩ | ⟨-, -, -, heq⟩ := waitInTurn_cases s
  · rw [heq] at h ⊢
    exact completeRead_pc_of_running h
  all_goals simp [heq, hs] at h

/-- Only the completion of the Write takes a core out of WAIT_OUT to RUNNING. -/
theorem waitOutTurn_pc_of_running {s : State} (hs : s.runState = .waitOut)
    (h : (waitOutTurn s).runState = .running) : (waitOutTurn s).pc = s.pc + 2 := by
  obtain ⟨rest, -, heq⟩ | ⟨rest, -, heq⟩ | ⟨-, heq⟩ | ⟨-, -, -, heq⟩ := waitOutTurn_cases s
  · rw [heq, completeWrite_pc]
  all_goals simp [heq, hs] at h

theorem step_waiting_pc_of_running {s t : State} (hs : s.Waiting) (h : step s = .next t)
    (ht : t.runState = .running) : t.pc = s.pc + 2 := by
  obtain ⟨hl, -⟩ := step_cases h
  obtain hin | hout := hs
  · rw [step_waitIn hl hin] at h
    cases h
    exact waitInTurn_pc_of_running hin ht
  · rw [step_waitOut hl hout] at h
    cases h
    exact waitOutTurn_pc_of_running hout ht

/-- Settles O41: one law for each shape of instruction, and one for the completions. -/
theorem programCounterUpdate : Obligations.ProgramCounterUpdate := by
  refine ⟨fun mk hmk m1 m2 m3 s t h ht => exec_threeParam_pc hmk h ht,
    fun mk hmk m1 m2 m3 s t h ht => ?jump, fun m1 m2 m3 s t h => h.elim exec_read_pc exec_write_pc,
    fun s t hs h ht => step_waiting_pc_of_running hs h ht,
    fun m1 m2 m3 s => ⟨_, exec_halt m1 m2 m3 s, rfl, rfl⟩⟩
  case jump =>
    obtain ⟨taken, hjump⟩ := exec_jump hmk
    obtain ⟨hexec, htaken⟩ := hjump m1 m2 m3
    rw [hexec] at h
    simpa only [htaken] using conditionalJump_pc (finish_next_not_faulted h ht)

/-! ### The fetch (R61) -/

/-- A `pc` past the end of memory raises AddressError(pc) at the fetch. -/
theorem fetchDecode_of_outOfRange {s : State} (h : ¬ InRange s (s.pc : Int)) :
    fetchDecode s = .error ⟨.addressError, (s.pc : Int)⟩ := by
  simp only [fetchDecode, memRead_outOfRange h]

/-- Settles O40: `pc` is in range or it is not, and the fetch reads the word there or raises. -/
theorem fetchReadsTheWordAtPc : Obligations.FetchReadsTheWordAtPc := by
  intro s hl hrun
  constructor
  · intro hpc
    have hfetch : memRead s (s.pc : Int) = .ok (s.mem.get s.pc) := memRead_inRange (by omega)
    refine ⟨hfetch, fun i hi => ?_⟩
    rw [step_running hl hrun, fetchDecode_of_decode_ok hfetch hi]
  · intro hpc
    have hout : ¬ InRange s (s.pc : Int) := by omega
    rw [step_running hl hrun, fetchDecode_of_outOfRange hout]
    rfl

end Sys2Proof.Machine
end

