-- ==== Sys2Proof/Proofs/Arithmetic.lean ====
section
/-! The ALU law (41_arithmetic.md R71). -/

namespace Sys2Proof.Machine

@[simp] theorem arith_add (p : Params) (a b : Word) : arith p 1 a b = narrow p 1 (a + b) := rfl

@[simp] theorem arith_multiply (p : Params) (a b : Word) : arith p 2 a b = narrow p 2 (a * b) := rfl

/-- Settles O13: each operation narrows its exact result, and narrowing has one law for a result that
fits and one for each overflow policy. -/
theorem arithmeticLaw : Obligations.ArithmeticLaw := by
  intro p a b
  rw [arith_add, arith_multiply]
  exact ⟨narrow_fits 1, narrow_fits 2, narrow_overflow 1, narrow_overflow 2, narrow_wraps 1,
    narrow_wraps 2⟩

end Sys2Proof.Machine
end

