-- ==== Sys2Proof/Proofs/Jump.lean ====
section
/-! Taken jumps (43_jump.md R85 to R87). -/

namespace Sys2Proof.Machine

/-- A taken jump does nothing but go to its target (R85, R87). -/
theorem conditionalJump_of_taken {taken : Word → Bool} {m1 m2 : Mode} {s : State} {c d : Word}
    (h1 : readParam s 1 m1 = .ok c) (h2 : readParam s 2 m2 = .ok d) (ht : taken c = true) :
    conditionalJump taken m1 m2 s = jumpTo d s := by
  simp [conditionalJump, h1, h2, ht]

theorem exec_of_taken {i : Instr} {m1 m2 m3 : Mode} {s : State} {c d : Word}
    (h1 : readParam s 1 m1 = .ok c) (h2 : readParam s 2 m2 = .ok d)
    (ht : (c ≠ 0 ∧ i = .jumpIfTrue m1 m2 m3) ∨ (c = 0 ∧ i = .jumpIfFalse m1 m2 m3)) :
    exec i s = finish s (jumpTo d s) := by
  obtain ⟨hc, rfl⟩ | ⟨hc, rfl⟩ := ht
  · exact congrArg (finish s) (conditionalJump_of_taken h1 h2 (by simp [isNonzero, hc]))
  · exact congrArg (finish s) (conditionalJump_of_taken h1 h2 (by simp [isNonzero, hc]))

theorem jumpTo_of_neg {d : Int} (h : d < 0) (s : State) :
    jumpTo d s = .error ⟨.addressError, d⟩ :=
  if_pos h

theorem jumpTo_of_nonneg {d : Int} (h : 0 ≤ d) (s : State) : jumpTo d s = .ok (s.setPc d.toNat) :=
  if_neg (Int.not_lt.mpr h)

/-- The legality of the parameters does not depend on `pc`. -/
@[simp] theorem State.setPc_legal (a : Nat) (s : State) : (s.setPc a).legal = s.legal := rfl

/-- The fetch at a target at or past `N` raises AddressError there (R61, R86). -/
theorem step_setPc_of_past_end {s : State} {d : Int} (hl : s.legal = true)
    (hrun : s.runState = .running) (hd : d ≥ (s.mem.size : Int)) :
    step (s.setPc d.toNat) = .next (enterFault ⟨.addressError, d⟩ (s.setPc d.toNat)) := by
  have hpc : ((s.setPc d.toNat).pc : Int) = d := Int.toNat_of_nonneg (by omega)
  have hout : ¬ InRange (s.setPc d.toNat) ((s.setPc d.toNat).pc : Int) := by
    rw [hpc]
    exact fun hin => Int.not_lt.mpr hd hin.2
  rw [step_running (by simpa using hl) (by simpa using hrun), fetchDecode_of_outOfRange hout, hpc]

/-- Settles O25: a negative target raises in the jump itself, and one past the end is committed, so
that the fetch there raises. -/
theorem takenJumpOutsideMemory : Obligations.TakenJumpOutsideMemory := by
  intro s m1 m2 m3 c d i hl hrun h1 h2 ht
  rw [exec_of_taken h1 h2 ht]
  constructor
  · intro hneg
    rw [jumpTo_of_neg hneg]
    rfl
  · intro hpast
    rw [jumpTo_of_nonneg (by omega)]
    exact ⟨rfl, step_setPc_of_past_end hl hrun hpast⟩

end Sys2Proof.Machine
end

/-! Fault entry (60_exceptions.md R96). -/

namespace Sys2Proof.Machine

/-- Settles O35: `enterFault` is this record update by definition (R96). -/
theorem faultEntrySetsTheRecord : Obligations.FaultEntrySetsTheRecord := by
  intro e s
  rfl

end Sys2Proof.Machine

namespace Sys2Proof

open Sys2Proof.Machine

/-! ### Encoding, and decoding what was encoded (R44, R57) -/

theorem Instr.opcode_lt_hundred (i : Instr) : i.opcode < 100 := by
  cases i <;> simp [Instr.opcode]

theorem natAbs_encode (i : Instr) :
    (encode i).natAbs = i.opcode + 100 * i.modes.1.digit + 1000 * i.modes.2.1.digit
      + 10000 * i.modes.2.2.digit :=
  Int.natAbs_natCast _

/-- The encoder writes the opcode and each mode into a digit field of its own (R44). -/
theorem fieldsOf_encode (i : Instr) : FieldsOf (encode i) i := by
  have hop := i.opcode_lt_hundred
  have h1 := Mode.digit_le_one i.modes.1
  have h2 := Mode.digit_le_one i.modes.2.1
  have h3 := Mode.digit_le_one i.modes.2.2
  rw [FieldsOf, HasFields, natAbs_encode]
  omega

/-- Settles O3: a word decodes to the instruction whose fields it has, and the encoder writes those
fields. -/
theorem decodeOfEncode : Obligations.DecodeOfEncode := by
  intro p i hwf
  exact decode_eq_ok.mpr ⟨fieldsOf_encode i, hwf⟩

theorem encode_nonneg (i : Instr) : 0 ≤ encode i := Int.natCast_nonneg _

theorem encode_toNat_le (i : Instr) : (encode i).toNat ≤ 99999 := by
  obtain ⟨hle, -⟩ := fieldsOf_encode i
  have := encode_nonneg i
  omega

/-- The first word of bits that hold one small word is that word. -/
theorem tableWord_zero_of_le {W : Nat} (hW : 18 ≤ W) {n : Nat} (hn : n ≤ 99999) :
    tableWord W n 0 = (n : Int) := by
  have hhalf := halfRange_ge hW
  have hfits : FitsW W (n : Int) := by constructor <;> omega
  simpa [tableWord] using wrapW_of_fits (by omega) hfits

/-- Settles O7: 17 bits hold every encoded word, and the word wraps to itself. -/
theorem tableWordReadsBack : Obligations.TableWordReadsBack := by
  intro i nbits hwf hbits
  have hle := encode_toNat_le i
  have hpow : 2 ^ 17 ≤ 2 ^ nbits := Nat.pow_le_pow_right (by decide) hbits
  have hword : tableWord Params.default.W ((encode i).toNat % 2 ^ nbits) 0 = encode i := by
    rw [Nat.mod_eq_of_lt (by omega), tableWord_zero_of_le (by decide) hle,
      Int.toNat_of_nonneg (encode_nonneg i)]
  apply decodeTableWord_of_decode
  rw [hword]
  exact decodeOfEncode _ i hwf

/-- Settles O5: the decoder runs on fourteen words. -/
theorem specDecoderVectors : Obligations.SpecDecoderVectors :=
  ⟨rfl, rfl, rfl, rfl, rfl, rfl, rfl, rfl, rfl, rfl, rfl, rfl, rfl, rfl⟩

/-! ### The canonical form (R50, R54, R57) -/

/-- No meaning looks at the mode of a write target or of a parameter the opcode lacks. -/
theorem exec_canonical (i : Instr) (s : State) : exec i.canonical s = exec i s := by
  cases i <;> rfl

theorem Instr.targetMode_canonical_ne_immediate (i : Instr) :
    i.canonical.targetMode ≠ some .immediate := by
  cases i <;> simp [Instr.canonical, Instr.targetMode]

/-- Settles O6: `exec` ignores what the canonical form clears, and the strict check looks only at
the target mode, which it clears. -/
theorem nonCanonicalActsAsCanonical : Obligations.NonCanonicalActsAsCanonical := by
  intro i s p
  refine ⟨(exec_canonical i s).symm, wellFormed_iff.mpr ?_⟩
  rintro ⟨-, himm⟩
  exact i.targetMode_canonical_ne_immediate himm

end Sys2Proof

namespace Sys2Proof.Machine

/-! ### Write targets (30_encoding.md R54, R55) -/

section
variable {s : State} {i : Nat} {m : Mode}

theorem writeAddr_of_paramWord_error {e : Raise} (h : paramWord s i = .error e) :
    writeAddr s i m = .error e := by
  simp [writeAddr, h]

theorem writeAddr_of_inRange {t : Word} (h : paramWord s i = .ok t) (ht : ¬ OutOfRange s.mem t) :
    writeAddr s i m = .ok t := by
  simp only [writeAddr, h, if_neg ht]

theorem writeAddr_of_outOfRange {t : Word} (h : paramWord s i = .ok t)
    (ht : OutOfRange s.mem t) : writeAddr s i m = .error ⟨.addressError, t⟩ := by
  simp only [writeAddr, h, if_pos ht]

end

/-- Settles O12: the parameter word faults, or it is the address, checked where it is resolved. -/
theorem writeTargetForm : Obligations.WriteTargetForm := by
  intro s i m
  exact ⟨fun _ h => writeAddr_of_paramWord_error h,
    fun _ h => ⟨writeAddr_of_outOfRange h, writeAddr_of_inRange h⟩⟩

/-! ### Wrapping (00_scope.md R7) -/

/-- A word is fixed by its residue modulo `2^W`. -/
theorem eq_of_fits_of_emod_eq {W : Nat} (hW : 1 ≤ W) {u v : Int} (hu : FitsW W u) (hv : FitsW W v)
    (h : u % ((2 ^ W : Nat) : Int) = v % ((2 ^ W : Nat) : Int)) : u = v := by
  rw [← wrapW_of_fits hW hu, ← wrapW_of_fits hW hv, wrapW, wrapW, ← Int.emod_bmod, h,
    Int.emod_bmod]

/-- Settles O8: a wrapped value is a word with the residue of the value, and only one word has that
residue. -/
theorem wrapIsTheCongruentWord : Obligations.WrapIsTheCongruentWord := by
  intro W v hW
  have hfits : FitsW W (wrapW W v) := wrapW_fits (by omega) v
  refine ⟨hfits, Int.modEq_iff_dvd.mp (wrapW_emod W v).symm, fun r hr hdvd => ?unique⟩
  case unique =>
    have hres : r % ((2 ^ W : Nat) : Int) = v % ((2 ^ W : Nat) : Int) :=
      (Int.modEq_iff_dvd.mpr hdvd).symm
    exact eq_of_fits_of_emod_eq (by omega) hr hfits (hres.trans (wrapW_emod W v).symm)

/-! ### A read after a write (20_memory.md R31, R36) -/

theorem memRead_setMem_other {s : State} {a b : Int} (v : Word) (ha : InRange s a) (hb : b ≠ a) :
    memRead { s with mem := s.mem.set a.toNat v } b = memRead s b := by
  by_cases hr : InRange s b
  · rw [memRead_inRange hr, memRead_inRange (s := { s with mem := s.mem.set a.toNat v }) hr]
    exact congrArg _ (Memory.get_set_other s.mem v (by omega))
  · rw [memRead_outOfRange hr, memRead_outOfRange (s := { s with mem := s.mem.set a.toNat v }) hr]

theorem memRead_setMem_same {s : State} {a : Int} (v : Word) (hwf : s.mem.wf = true)
    (ha : InRange s a) : memRead { s with mem := s.mem.set a.toNat v } a = .ok v := by
  rw [memRead_inRange (s := { s with mem := s.mem.set a.toNat v }) ha]
  exact congrArg _ (Memory.get_set_same hwf a.toNat v)

/-- Settles O10: a write that succeeds sets one cell of the memory in range. -/
theorem writeChangesOnlyItsWord : Obligations.WriteChangesOnlyItsWord := by
  intro s t a v hwf h
  obtain ⟨ha, rfl⟩ := memWrite_ok h
  exact ⟨memRead_setMem_same v hwf ha, fun b hb => memRead_setMem_other v ha hb, rfl, rfl⟩

end Sys2Proof.Machine

/-! The three-parameter instructions: Add, Multiply, LessThan and Equals (41_arithmetic.md,
44_compare.md). -/

namespace Sys2Proof.Machine

section
variable {alu : Word → Word → Except Raise Word} {m1 m2 m3 : Mode} {s : State} {a b t r : Word}
  {e : Raise}

/-- With its parameters resolved and its result computed, the instruction answers the same state
with the result stored and `pc` past the instruction (R66, R67). -/
theorem finish_threeParam_of_ok (ha : readParam s 1 m1 = .ok a) (hb : readParam s 2 m2 = .ok b)
    (ht : writeAddr s 3 m3 = .ok t) (hr : alu a b = .ok r) :
    finish s (threeParam alu m1 m2 m3 s) =
      .next { s with mem := s.mem.set t.toNat r, pc := s.pc + 4 } := by
  rw [threeParam_commits ha hb ht hr, finish_ok]

theorem threeParam_of_alu_error (ha : readParam s 1 m1 = .ok a) (hb : readParam s 2 m2 = .ok b)
    (ht : writeAddr s 3 m3 = .ok t) (he : alu a b = .error e) :
    threeParam alu m1 m2 m3 s = .error e := by
  simp [threeParam, ha, hb, ht, he]

/-- With its parameters resolved, the instruction takes what its ALU raises. -/
theorem finish_threeParam_of_alu_error (ha : readParam s 1 m1 = .ok a)
    (hb : readParam s 2 m2 = .ok b) (ht : writeAddr s 3 m3 = .ok t) (he : alu a b = .error e) :
    finish s (threeParam alu m1 m2 m3 s) = .next (enterFault e s) := by
  rw [threeParam_of_alu_error ha hb ht he, finish_error]

end

/-! ### Add and Multiply -/

/-- Settles O14: a sum that fits is stored as it is. -/
theorem addStoresTheSum : Obligations.AddStoresTheSum := by
  intro s m1 m2 m3 a b t ha hb ht hfits
  exact finish_threeParam_of_ok ha hb ht (narrow_fits 1 hfits)

/-- Settles O15: a product that fits is stored as it is. -/
theorem multiplyStoresTheProduct : Obligations.MultiplyStoresTheProduct := by
  intro s m1 m2 m3 a b t ha hb ht hfits
  exact finish_threeParam_of_ok ha hb ht (narrow_fits 2 hfits)

/-- Settles O16: under the policy `fault` narrowing raises Overflow with the opcode. -/
theorem overflowFaultsUnderFaultPolicy : Obligations.OverflowFaultsUnderFaultPolicy := by
  intro s m1 m2 m3 a b t ha hb ht hpolicy
  constructor
  · intro h
    exact finish_threeParam_of_alu_error (e := ⟨.overflow, 1⟩) ha hb ht
      (narrow_overflow 1 h hpolicy)
  · intro h
    exact finish_threeParam_of_alu_error (e := ⟨.overflow, 2⟩) ha hb ht
      (narrow_overflow 2 h hpolicy)

/-- Settles O17: under the policy `wrap` narrowing answers the wrapped result. -/
theorem overflowWrapsUnderWrapPolicy : Obligations.OverflowWrapsUnderWrapPolicy := by
  intro s m1 m2 m3 a b t ha hb ht hpolicy
  exact ⟨fun h => finish_threeParam_of_ok ha hb ht (narrow_wraps 1 h hpolicy),
    fun h => finish_threeParam_of_ok ha hb ht (narrow_wraps 2 h hpolicy)⟩

/-! ### LessThan and Equals -/

/-- A decided comparison as the word it stores (R91). -/
theorem truthWord_decide (p : Prop) [Decidable p] :
    truthWord (decide p) = if p then 1 else 0 := by
  by_cases h : p <;> simp [truthWord, h]

/-- Settles O18: the ALU of LessThan decides `a < b`. -/
theorem lessThanStoresOneOrZero : Obligations.LessThanStoresOneOrZero := by
  intro s m1 m2 m3 a b t ha hb ht
  rw [← truthWord_decide]
  exact finish_threeParam_of_ok ha hb ht rfl

/-- Settles O19: the ALU of Equals decides `a = b`. -/
theorem equalsStoresOneOrZero : Obligations.EqualsStoresOneOrZero := by
  intro s m1 m2 m3 a b t ha hb ht
  rw [← truthWord_decide]
  exact finish_threeParam_of_ok ha hb ht rfl

/-- A compare raises nothing of its own: what faults it is an address (R99). -/
theorem compare_faulted {f : Word → Word → Bool} {m1 m2 m3 : Mode} {s t : State}
    (hrun : s.runState = .running)
    (h : finish s (threeParam (fun a b => .ok (truthWord (f a b))) m1 m2 m3 s) = .next t)
    (ht : t.runState = .faulted) :
    ∃ a, ¬ InRange s a ∧ t = enterFault ⟨.addressError, a⟩ s := by
  rcases finish_next h with hr | ⟨e, hr, rfl⟩
  · obtain ⟨a, b, d, r, -, -, -, -, rfl⟩ := threeParam_ok hr
    simp [hrun] at ht
  · rcases threeParam_error hr with ⟨a, ha, rfl⟩ | ⟨a, b, -, -, he⟩
    · exact ⟨a, ha, rfl⟩
    · cases he

/-- Settles O20: both compares have the shape of `compare_faulted`. -/
theorem comparesFaultOnlyOnAddresses : Obligations.ComparesFaultOnlyOnAddresses := by
  intro s t m1 m2 m3 hrun h ht
  obtain ⟨a, ha, rfl⟩ : ∃ a, ¬ InRange s a ∧ t = enterFault ⟨.addressError, a⟩ s :=
    h.elim (compare_faulted hrun · ht) (compare_faulted hrun · ht)
  exact ⟨rfl, show a < 0 ∨ a ≥ (s.mem.size : Int) by omega⟩

/-! ### The frame (R24, R31, R97) -/

/-- Settles O21: the instruction commits, and then it wrote the word its target names and moved
`pc`, or it faults, and then it changed the fault record only. -/
theorem threeParameterFrame : Obligations.ThreeParameterFrame := by
  intro mk hmk m1 m2 m3 s t hrun h
  obtain ⟨alu, hexec⟩ := exec_threeParam hmk s
  rw [hexec] at h
  rcases finish_next h with hr | ⟨e, -, rfl⟩
  · obtain ⟨a, b, d, r, -, -, hd, -, rfl⟩ := threeParam_ok hr
    obtain ⟨-, hin, -⟩ := writeAddr_ok hd
    refine ⟨fun a' b' ha' hb' => ?other, fun hnone => absurd hd (hnone d),
      fun hf => ?notFaulted, fun _ => ⟨rfl, rfl, rfl, rfl⟩, rfl, rfl, rfl, rfl, rfl, rfl, rfl, rfl,
      rfl⟩
    case other =>
      obtain rfl : d = a' := by simpa [hd] using ha'
      exact memRead_setMem_other r hin hb'
    case notFaulted => simp [hrun] at hf
  · exact ⟨fun _ b _ _ => memRead_congr rfl b, fun _ b => memRead_congr rfl b,
      fun _ => ⟨fun b => memRead_congr rfl b, rfl⟩, fun hf => absurd rfl hf, rfl, rfl, rfl, rfl,
      rfl, rfl, rfl, rfl, rfl⟩

end Sys2Proof.Machine

/-! The instructions that store nothing: the jumps, Read, Write and End (42_io.md, 43_jump.md,
45_halt.md). -/

namespace Sys2Proof.Machine

/-! ### Jumps -/

/-- A jump that is not taken advances past itself (R85, R87). -/
theorem conditionalJump_of_not_taken {taken : Word → Bool} {m1 m2 : Mode} {s : State} {c d : Word}
    (h1 : readParam s 1 m1 = .ok c) (h2 : readParam s 2 m2 = .ok d) (ht : taken c = false) :
    conditionalJump taken m1 m2 s = .ok (s.setPc (s.pc + 3)) := by
  simp [conditionalJump, h1, h2, ht]

theorem exec_of_not_taken {i : Instr} {m1 m2 m3 : Mode} {s : State} {c d : Word}
    (h1 : readParam s 1 m1 = .ok c) (h2 : readParam s 2 m2 = .ok d)
    (ht : (c = 0 ∧ i = .jumpIfTrue m1 m2 m3) ∨ (c ≠ 0 ∧ i = .jumpIfFalse m1 m2 m3)) :
    exec i s = .next { s with pc := s.pc + 3 } := by
  obtain ⟨hc, rfl⟩ | ⟨hc, rfl⟩ := ht
  · exact congrArg (finish s) (conditionalJump_of_not_taken h1 h2 (by simp [isNonzero, hc]))
  · exact congrArg (finish s) (conditionalJump_of_not_taken h1 h2 (by simp [isNonzero, hc]))

/-- Settles O23: taken on a word that is not 0. -/
theorem jumpIfTrueRule : Obligations.JumpIfTrueRule := by
  intro s m1 m2 m3 c d h1 h2
  refine ⟨fun hc hd => ?_, fun hc => exec_of_not_taken h1 h2 (.inl ⟨hc, rfl⟩)⟩
  rw [exec_of_taken h1 h2 (.inl ⟨hc, rfl⟩), jumpTo_of_nonneg hd]
  rfl

/-- Settles O24: taken on 0. -/
theorem jumpIfFalseRule : Obligations.JumpIfFalseRule := by
  intro s m1 m2 m3 c d h1 h2
  refine ⟨fun hc hd => ?_, fun hc => exec_of_not_taken h1 h2 (.inr ⟨hc, rfl⟩)⟩
  rw [exec_of_taken h1 h2 (.inr ⟨hc, rfl⟩), jumpTo_of_nonneg hd]
  rfl

/-! ### Requests and End -/

/-- Settles O26: the request of WAIT_IN is InReq. -/
theorem readRequestsInput : Obligations.ReadRequestsInput := by
  intro s m1 m2 m3 t ht
  exact ⟨exec_read_of_writeAddr_ok ht, rfl⟩

/-- Settles O29: the request of WAIT_OUT is OutReq of the latch. -/
theorem writeRequestsOutput : Obligations.WriteRequestsOutput := by
  intro s m1 m2 m3 v hv
  exact ⟨exec_write_of_readParam_ok hv, rfl⟩

/-- Settles O33: the request is a function of the execution state and the latch. -/
theorem outstandingRequest : Obligations.OutstandingRequest := by
  intro s
  cases hrun : s.runState <;> simp [State.request, State.Waiting, hrun, eq_comm]

/-- Settles O34: the meaning of End. -/
theorem endHalts : Obligations.EndHalts := by
  intro s m1 m2 m3
  exact exec_halt m1 m2 m3 s

/-! ### The frame (R24, R97) -/

/-- What an instruction that stores nothing can answer, by the fields it may change. -/
inductive NonStoring (i : Instr) (m1 m2 m3 : Mode) (s t : State) : Prop where
  | requested (hi : i = .read m1 m2 m3 ∨ i = .write m1 m2 m3) (v : Word) (r : RunState)
      (hr : r ≠ .faulted) (h : t = { s with ioLatch := v, runState := r })
  | jumped (hi : i = .jumpIfTrue m1 m2 m3 ∨ i = .jumpIfFalse m1 m2 m3) (a : Nat)
      (h : t = s.setPc a)
  | halted (hi : i = .halt m1 m2 m3) (h : t = { s with runState := .halted })
  | faulted (a : Int) (ha : ¬ InRange s a) (h : t = enterFault ⟨.addressError, a⟩ s)

theorem exec_read_cases {m1 m2 m3 : Mode} {s t : State} (h : exec (.read m1 m2 m3) s = .next t) :
    NonStoring (.read m1 m2 m3) m1 m2 m3 s t := by
  cases ha : writeAddr s 1 m1 with
  | error e =>
    obtain ⟨a, hout, rfl⟩ := writeAddr_error ha
    rw [exec_read_of_writeAddr_error ha] at h
    cases h
    exact .faulted a hout rfl
  | ok a =>
    rw [exec_read_of_writeAddr_ok ha] at h
    cases h
    exact .requested (.inl rfl) a .waitIn (by simp) rfl

theorem exec_write_cases {m1 m2 m3 : Mode} {s t : State} (h : exec (.write m1 m2 m3) s = .next t) :
    NonStoring (.write m1 m2 m3) m1 m2 m3 s t := by
  cases hv : readParam s 1 m1 with
  | error e =>
    obtain ⟨a, hout, rfl⟩ := readParam_error hv
    rw [exec_write_of_readParam_error hv] at h
    cases h
    exact .faulted a hout rfl
  | ok v =>
    rw [exec_write_of_readParam_ok hv] at h
    cases h
    exact .requested (.inr rfl) v .waitOut (by simp) rfl

theorem exec_jump_cases {i : Instr} {m1 m2 m3 : Mode} {s t : State}
    (hi : i = .jumpIfTrue m1 m2 m3 ∨ i = .jumpIfFalse m1 m2 m3) (h : exec i s = .next t) :
    NonStoring i m1 m2 m3 s t := by
  obtain ⟨taken, hexec⟩ : ∃ taken : Word → Bool,
      exec i s = finish s (conditionalJump taken m1 m2 s) := by
    rcases hi with rfl | rfl <;> exact ⟨_, rfl⟩
  rw [hexec] at h
  rcases finish_next h with hr | ⟨e, hr, rfl⟩
  · obtain ⟨c, d, -, -, ⟨-, -, rfl⟩ | ⟨-, rfl⟩⟩ := conditionalJump_ok hr
    · exact .jumped hi _ rfl
    · exact .jumped hi _ rfl
  · obtain ⟨a, hout, rfl⟩ := conditionalJump_error hr
    exact .faulted a hout rfl

theorem exec_halt_cases {m1 m2 m3 : Mode} {s t : State} (h : exec (.halt m1 m2 m3) s = .next t) :
    NonStoring (.halt m1 m2 m3) m1 m2 m3 s t := by
  rw [exec_halt] at h
  cases h
  exact .halted rfl rfl

theorem exec_nonStoring_cases {i : Instr} {m1 m2 m3 : Mode} {s t : State}
    (hi : i ∈ [Instr.read m1 m2 m3, .write m1 m2 m3, .jumpIfTrue m1 m2 m3, .jumpIfFalse m1 m2 m3,
      .halt m1 m2 m3])
    (h : exec i s = .next t) : NonStoring i m1 m2 m3 s t := by
  simp only [List.mem_cons, List.not_mem_nil, or_false] at hi
  obtain rfl | rfl | hi | hi | rfl := hi
  · exact exec_read_cases h
  · exact exec_write_cases h
  · exact exec_jump_cases (.inl hi) h
  · exact exec_jump_cases (.inr hi) h
  · exact exec_halt_cases h

/-- Settles O22: each of the answers of `NonStoring` leaves the fields the frame names. -/
theorem nonStoringFrame : Obligations.NonStoringFrame := by
  intro m1 m2 m3 s t i hmem hrun h
  cases exec_nonStoring_cases hmem h with
  | requested hi v r hr h =>
    subst h
    exact ⟨fun b => memRead_congr rfl b, rfl, fun _ => ⟨rfl, rfl, rfl⟩, fun hf => absurd hf hr,
      fun hni => absurd (by simpa using hi) hni, fun _ => rfl, rfl, rfl, rfl, rfl, rfl, rfl, rfl⟩
  | jumped hi a h =>
    subst h
    refine ⟨fun b => memRead_congr rfl b, rfl, fun _ => ⟨rfl, rfl, rfl⟩, fun hf => ?_,
      fun _ => rfl, fun hni => absurd (by simpa using hi) hni, rfl, rfl, rfl, rfl, rfl, rfl, rfl⟩
    simp [hrun] at hf
  | halted hi h =>
    subst h
    exact ⟨fun b => memRead_congr rfl b, rfl, fun _ => ⟨rfl, rfl, rfl⟩, fun hf => by simp at hf,
      fun _ => rfl, fun _ => rfl, rfl, rfl, rfl, rfl, rfl, rfl, rfl⟩
  | faulted a _ h =>
    subst h
    exact ⟨fun b => memRead_congr rfl b, rfl, fun hnf => absurd rfl hnf, fun _ => ⟨rfl, rfl⟩,
      fun _ => rfl, fun _ => rfl, rfl, rfl, rfl, rfl, rfl, rfl, rfl⟩

end Sys2Proof.Machine

/-! Faults of a running core, and what every step answers (60_exceptions.md,
40_execution_cycle.md). -/

namespace Sys2Proof.Machine

/-! ### Running the word at `pc` (R60 to R62) -/

/-- Settles O39: the fetch answers the decoded instruction, and the step is its `exec`. -/
theorem stepRunsTheDecodedInstruction : Obligations.StepRunsTheDecodedInstruction := by
  intro s w i hl hrun hw hi
  rw [step_running hl hrun, fetchDecode_of_decode_ok hw hi]

/-- Settles O42: the Add leaves the parameters legal and the core running, and the fetch at its new
`pc` reads the word it stored. -/
theorem storedWordIsTheNextInstruction : Obligations.StoredWordIsTheNextInstruction := by
  intro s t m1 m2 m3 a b i hl hwf hrun ha hb ht hfits hi h
  rw [addStoresTheSum s m1 m2 m3 a b _ ha hb ht hfits] at h
  obtain ⟨-, hin, -⟩ := writeAddr_ok ht
  cases h
  have hread := memRead_setMem_same (a + b) hwf hin
  exact ⟨rfl, hread, stepRunsTheDecodedInstruction _ (a + b) i hl hrun hread hi⟩

/-- The words placed at an address stand there, the first one first. -/
theorem Memory.place_get_first {m : Memory} (hwf : m.wf = true) (a : Nat) (v : Word)
    (rest : List Word) : (m.place a (v :: rest)).get a = v := by
  rw [Memory.place, Memory.place_get_below rest _ (Nat.lt_succ_self a), Memory.get_set_same hwf]

/-- Making a memory longer keeps its canonical form. -/
theorem Memory.wf_of_size_le {m : Memory} (hwf : m.wf = true) {n : Nat} (hn : m.size ≤ n) :
    Memory.wf { m with size := n } = true :=
  cellsWf_size_mono hn hwf

section
variable (s : State) (nbits w : Nat)

theorem State.withFetchWord_mem_size :
    (s.withFetchWord nbits w).mem.size = max s.mem.size (s.pc + 4) :=
  Memory.place_size _ _ _

/-- The first of the placed words is the one the next fetch reads. -/
theorem State.memRead_withFetchWord (hwf : s.mem.wf = true) :
    memRead (s.withFetchWord nbits w) ((s.withFetchWord nbits w).pc : Int) =
      .ok (tableWord s.params.W (w % 2 ^ nbits) 0) := by
  have hsize := s.withFetchWord_mem_size nbits w
  have hpc : (s.withFetchWord nbits w).pc = s.pc := rfl
  rw [memRead_inRange (by constructor <;> omega)]
  exact congrArg _ (Memory.place_get_first (Memory.wf_of_size_le hwf (Nat.le_max_left _ _)) _ _ _)

end

/-- Settles O52: with the placed words the parameters stay legal, and the fetch reads the first of
them. -/
theorem placedWordIsTheNextInstruction : Obligations.PlacedWordIsTheNextInstruction := by
  intro s nbits w i hl hwf hpc hi
  obtain ⟨hW, hsize⟩ := State.legal_iff.mp hl
  have hl' : (s.withFetchWord nbits w).legal = true := by
    refine State.legal_iff.mpr ⟨hW, ?_⟩
    rw [s.withFetchWord_mem_size nbits w]
    exact Nat.max_le.mpr ⟨hsize, hpc⟩
  exact stepRunsTheDecodedInstruction _ _ i hl' rfl (s.memRead_withFetchWord nbits w hwf) hi

/-! ### Every step answers (R60, R65) -/

theorem exists_finish_next (s : State) (r : Except Raise State) : ∃ t, finish s r = .next t := by
  cases r with
  | ok t => exact ⟨t, rfl⟩
  | error e => exact ⟨enterFault e s, rfl⟩

/-- Every meaning ends by `finish`. -/
theorem exists_exec_next (i : Instr) (s : State) : ∃ t, exec i s = .next t := by
  cases i
  case halt m1 m2 m3 => exact ⟨_, exec_halt m1 m2 m3 s⟩
  all_goals exact exists_finish_next s _

theorem exists_step_next {s : State} (hl : s.legal = true) : ∃ t, step s = .next t := by
  cases hrun : s.runState with
  | running =>
    rw [step_running hl hrun]
    cases fetchDecode s with
    | ok i => exact exists_exec_next i s
    | error e => exact ⟨enterFault e s, rfl⟩
  | waitIn => exact ⟨_, step_waitIn hl hrun⟩
  | waitOut => exact ⟨_, step_waitOut hl hrun⟩
  | halted => exact ⟨_, step_terminal hl (.inl hrun)⟩
  | faulted => exact ⟨_, step_terminal hl (.inr hrun)⟩

/-- Settles O43: each execution state has its step, behind the check of the parameters. -/
theorem everyLegalStepAnswersANextState : Obligations.EveryLegalStepAnswersANextState := by
  intro s
  exact ⟨exists_step_next, fun hl => by simp [step, hl]⟩

/-! ### What a running core can take (R95, R97) -/

/-- An instruction that commits does not fault. -/
theorem Committed.runState_ne_faulted {s t : State} (hc : Committed s t)
    (hrun : s.runState = .running) : t.runState ≠ .faulted := by
  cases hc
  all_goals
    subst t
    simp [hrun]

theorem Raised.cause_ne_none {s : State} {e : Raise} (hr : Raised s e) : e.cause ≠ .none := by
  cases hr
  all_goals
    subst e
    simp

/-- A running core either commits an instruction or takes the fault that the fetch or the
instruction raised. -/
theorem step_running_cases {s t : State} (h : step s = .next t) (hrun : s.runState = .running) :
    (∃ i, fetchDecode s = .ok i ∧ exec i s = .next t) ∨
      ∃ e, fetchDecode s = .error e ∧ t = enterFault e s := by
  obtain ⟨hl, -⟩ := step_cases h
  rw [step_running hl hrun] at h
  cases hf : fetchDecode s with
  | ok i => exact .inl ⟨i, rfl, by simpa only [hf] using h⟩
  | error e => exact .inr ⟨e, rfl, by simpa [hf] using h.symm⟩

theorem fetchDecode_cause_ne_none {s : State} {e : Raise} (h : fetchDecode s = .error e) :
    e.cause ≠ .none := by
  obtain ⟨-, rfl⟩ | ⟨w, r, -, -, rfl⟩ := fetchDecode_error h <;> simp

/-- A running core that faults does nothing but enter the fault, with a cause (R96, R97). -/
theorem step_faulted {s t : State} (h : step s = .next t) (hrun : s.runState = .running)
    (ht : t.runState = .faulted) : ∃ e : Raise, e.cause ≠ .none ∧ t = enterFault e s := by
  obtain ⟨i, -, hi⟩ | ⟨e, he, rfl⟩ := step_running_cases h hrun
  · obtain hc | ⟨e, he, rfl⟩ := exec_cases hi
    · exact absurd ht (hc.runState_ne_faulted hrun)
    · exact ⟨e, he.cause_ne_none, rfl⟩
  · exact ⟨e, fetchDecode_cause_ne_none he, rfl⟩

/-- Settles O36: fault entry is the whole of what such a step does. -/
theorem faultsArePrecise : Obligations.FaultsArePrecise := by
  intro s t h hrun ht
  obtain ⟨e, he, rfl⟩ := step_faulted h hrun ht
  exact ⟨he, rfl⟩

/-- What an Add or a Multiply that faults took: an address error, or Overflow under the policy
`fault` on operands whose exact result does not fit (R71, R95). -/
theorem arith_faulted {op : Nat} {m1 m2 m3 : Mode} {s t : State} (hrun : s.runState = .running)
    (h : finish s (threeParam (arith s.params op) m1 m2 m3 s) = .next t)
    (ht : t.runState = .faulted) :
    (∃ a, ¬ InRange s a ∧ t = enterFault ⟨.addressError, a⟩ s) ∨
      (t = enterFault ⟨.overflow, (op : Int)⟩ s ∧ s.params.overflowPolicy = .fault ∧
        ∃ a b, readParam s 1 m1 = .ok a ∧ readParam s 2 m2 = .ok b ∧
          ¬ FitsW s.params.W (exactResult op a b)) := by
  rcases finish_next h with hr | ⟨e, hr, rfl⟩
  · obtain ⟨a, b, d, r, -, -, -, -, rfl⟩ := threeParam_ok hr
    simp [hrun] at ht
  · obtain ⟨a, ha, rfl⟩ | ⟨a, b, ha, hb, he⟩ := threeParam_error hr
    · exact .inl ⟨a, ha, rfl⟩
    · obtain ⟨rfl, hpolicy, hfits⟩ := arith_error he
      exact .inr ⟨rfl, hpolicy, a, b, ha, hb, hfits⟩

/-- An instruction that stores nothing faults only on an address. -/
theorem NonStoring.faulted_address {i : Instr} {m1 m2 m3 : Mode} {s t : State}
    (hn : NonStoring i m1 m2 m3 s t) (hrun : s.runState = .running) (ht : t.runState = .faulted) :
    ∃ a, ¬ InRange s a ∧ t = enterFault ⟨.addressError, a⟩ s := by
  cases hn with
  | requested _ v r hr h =>
    subst h
    exact absurd ht hr
  | jumped _ a h => simp [h, hrun] at ht
  | halted _ h => simp [h] at ht
  | faulted a ha h => exact ⟨a, ha, h⟩

/-- Over all instructions: a fault is an address error, or the Overflow of an Add or a Multiply. -/
theorem exec_faulted {i : Instr} {s t : State} (hrun : s.runState = .running)
    (h : exec i s = .next t) (ht : t.runState = .faulted) :
    (∃ a, ¬ InRange s a ∧ t = enterFault ⟨.addressError, a⟩ s) ∨
      (s.params.overflowPolicy = .fault ∧
        ∃ m1 m2 m3 a b, readParam s 1 m1 = .ok a ∧ readParam s 2 m2 = .ok b ∧
          ((i = .add m1 m2 m3 ∧ t = enterFault ⟨.overflow, 1⟩ s ∧ ¬ FitsW s.params.W (a + b)) ∨
            (i = .multiply m1 m2 m3 ∧ t = enterFault ⟨.overflow, 2⟩ s ∧
              ¬ FitsW s.params.W (a * b)))) := by
  cases i with
  | add m1 m2 m3 =>
    obtain haddr | ⟨rfl, hpolicy, a, b, ha, hb, hfits⟩ := arith_faulted hrun h ht
    · exact .inl haddr
    · exact .inr ⟨hpolicy, m1, m2, m3, a, b, ha, hb, .inl ⟨rfl, rfl, hfits⟩⟩
  | multiply m1 m2 m3 =>
    obtain haddr | ⟨rfl, hpolicy, a, b, ha, hb, hfits⟩ := arith_faulted hrun h ht
    · exact .inl haddr
    · exact .inr ⟨hpolicy, m1, m2, m3, a, b, ha, hb, .inr ⟨rfl, rfl, hfits⟩⟩
  | lessThan m1 m2 m3 => exact .inl (compare_faulted hrun h ht)
  | equals m1 m2 m3 => exact .inl (compare_faulted hrun h ht)
  | read m1 m2 m3 => exact .inl ((exec_read_cases h).faulted_address hrun ht)
  | write m1 m2 m3 => exact .inl ((exec_write_cases h).faulted_address hrun ht)
  | jumpIfTrue m1 m2 m3 => exact .inl ((exec_jump_cases (.inl rfl) h).faulted_address hrun ht)
  | jumpIfFalse m1 m2 m3 => exact .inl ((exec_jump_cases (.inr rfl) h).faulted_address hrun ht)
  | halt m1 m2 m3 => exact .inl ((exec_halt_cases h).faulted_address hrun ht)

/-- A word that does not decode is illegal (R56). -/
theorem illegalWord_of_decode_error {p : Params} {w : Word} {r : Reject}
    (h : decode p w = .error r) : IllegalWord p w := by
  by_contra hlegal
  obtain ⟨i, hi⟩ := not_illegalWord_iff.mp hlegal
  rw [h] at hi
  cases hi

/-- Settles O37: the fault is the fetch's, with code 3 or 2, or the instruction's, with code 3
or 4. -/
theorem faultCausesAndInfos : Obligations.FaultCausesAndInfos := by
  intro s t h hrun ht
  have haddress : ∀ a, ¬ InRange s a → a < 0 ∨ a ≥ (s.mem.size : Int) := fun a ha => by omega
  obtain ⟨i, hf, hi⟩ | ⟨e, he, rfl⟩ := step_running_cases h hrun
  · obtain ⟨w, hw, hdec⟩ := fetchDecode_ok hf
    obtain ⟨a, ha, rfl⟩ | ⟨hpolicy, m1, m2, m3, a, b, ha, hb, hop⟩ := exec_faulted hrun hi ht
    · exact .inr (.inl ⟨rfl, haddress a ha⟩)
    · refine .inr (.inr ?_)
      obtain ⟨rfl, rfl, hfits⟩ | ⟨rfl, rfl, hfits⟩ := hop
      · exact ⟨rfl, hpolicy, w, m1, m2, m3, a, b, hw, ha, hb, .inl ⟨hdec, rfl, hfits⟩⟩
      · exact ⟨rfl, hpolicy, w, m1, m2, m3, a, b, hw, ha, hb, .inr ⟨hdec, rfl, hfits⟩⟩
  · obtain ⟨hout, rfl⟩ | ⟨w, r, hw, hr, rfl⟩ := fetchDecode_error he
    · exact .inr (.inl ⟨rfl, haddress _ hout⟩)
    · exact .inl ⟨rfl, hw, illegalWord_of_decode_error hr⟩

end Sys2Proof.Machine

/-! The completions of Read and Write, and a waiting core (42_io.md). -/

namespace Sys2Proof.Machine

/-! ### The next move of the host, by what it is -/

section
variable {s : State} {rest : List HostMove}

theorem waitInTurn_answer {a : InAnswer} (h : s.host = .answer a :: rest) :
    waitInTurn s = completeRead a { s with host := rest } := by
  simp only [waitInTurn, h]

theorem waitOutTurn_outAck (h : s.host = .outAck :: rest) :
    waitOutTurn s = completeWrite { s with host := rest } := by
  simp only [waitOutTurn, h]

theorem terminalTurn_load {image : List Word} (h : s.host = .load image :: rest)
    (himage : imageLegal s.params image = true) :
    terminalTurn s = loadStart image { s with host := rest } := by
  simp only [terminalTurn, h, if_pos himage]

theorem State.waiting_or_terminal (hrun : s.runState ≠ .running) : s.Waiting ∨ s.Terminal := by
  cases hr : s.runState <;> simp_all [State.Waiting, State.Terminal]

/-- A host that has decided on no move decides, in every state in which it may move at all. -/
theorem step_of_host_nil (hl : s.legal = true) (hrun : s.runState ≠ .running) (h : s.host = []) :
    step s = .next (hostDecides s) := by
  obtain (hr | hr) | hr := State.waiting_or_terminal hrun
  · simp only [step_waitIn hl hr, waitInTurn, h]
  · simp only [step_waitOut hl hr, waitOutTurn, h]
  · simp only [step_terminal hl hr, terminalTurn, h]

/-- A move that is to do nothing is taken from the host, in every state in which it may move. -/
theorem step_of_host_idle (hl : s.legal = true) (hrun : s.runState ≠ .running)
    (h : s.host = .idle :: rest) : step s = .next { s with host := rest } := by
  obtain (hr | hr) | hr := State.waiting_or_terminal hrun
  · simp only [step_waitIn hl hr, waitInTurn, h]
  · simp only [step_waitOut hl hr, waitOutTurn, h]
  · simp only [step_terminal hl hr, terminalTurn, h]

theorem State.Waiting.ne_running (hw : s.Waiting) : s.runState ≠ .running := by
  rcases hw with h | h <;> simp [h]

end

/-! ### The completions (R77, R78, R80) -/

theorem completeRead_of_fits {s : State} {v : Int} (hv : FitsW s.params.W v)
    (hlatch : InRange s s.ioLatch) :
    completeRead (.value v) s =
      { s with
        inputLog := s.inputLog ++ [.value v]
        mem := s.mem.set s.ioLatch.toNat v
        pc := s.pc + 2
        runState := .running } := by
  obtain ⟨u, hu, -, -, heq⟩ | ⟨hnot, -⟩ | ⟨hout, -⟩ := completeRead_cases (.value v) s
  · cases hu
    exact heq
  · exact absurd hv (hnot v rfl)
  · exact absurd hlatch hout

theorem completeRead_of_rejected {s : State} {a : InAnswer}
    (h : ∀ v, a = .value v → ¬ FitsW s.params.W v) :
    completeRead a s = enterFault ⟨.parseError, 0⟩ { s with inputLog := s.inputLog ++ [a] } := by
  cases a with
  | malformed => rfl
  | value v => simp only [completeRead, if_neg (h v rfl)]

/-- The completion of a Read whose latch is out of range, which the invariant rules out. -/
theorem completeRead_of_latch_outOfRange {s : State} {v : Int} (hv : FitsW s.params.W v)
    (hlatch : ¬ InRange s s.ioLatch) :
    completeRead (.value v) s =
      enterFault ⟨.addressError, s.ioLatch⟩ { s with inputLog := s.inputLog ++ [.value v] } := by
  obtain ⟨-, -, -, hin, -⟩ | ⟨hnot, -⟩ | ⟨-, heq⟩ := completeRead_cases (.value v) s
  · exact absurd hin hlatch
  · exact absurd hv (hnot v rfl)
  · exact heq

/-- Settles O27: the host's answer completes the Read, and it fits. -/
theorem readCompletesWithTheValue : Obligations.ReadCompletesWithTheValue := by
  intro s v rest hl hrun hhost hv hlatch
  rw [step_waitIn hl hrun, waitInTurn_answer hhost,
    completeRead_of_fits (s := { s with host := rest }) hv hlatch]

/-- Settles O28: the host's answer completes the Read, and it is rejected. -/
theorem malformedInputTakesParseError : Obligations.MalformedInputTakesParseError := by
  intro s a rest hl hrun hhost ha
  have hrejected : ∀ v, a = .value v → ¬ FitsW s.params.W v := by
    rintro v rfl
    obtain ha | ⟨u, hu, hfits⟩ := ha
    · cases ha
    · cases hu
      exact hfits
  refine ⟨?_, rfl⟩
  rw [step_waitIn hl hrun, waitInTurn_answer hhost,
    completeRead_of_rejected (s := { s with host := rest }) hrejected]
  rfl

/-! ### Steps that change the host's own fields only -/

/-- Nothing differs but the host's own fields. -/
abbrev OnlyHostChanged (s t : State) : Prop :=
  t = { s with host := t.host, hostRest := t.hostRest, hostIndex := t.hostIndex }

theorem OnlyHostChanged.request {s t : State} (h : OnlyHostChanged s t) :
    t.request = s.request := by
  rw [h]
  rfl

/-- Settles O30: `OutAck` completes the Write, and any other turn changes the host's fields only. -/
theorem writeCompletesOnOutAck : Obligations.WriteCompletesOnOutAck := by
  intro s hl hrun
  rw [step_waitOut hl hrun]
  refine ⟨fun rest h => ?acknowledged, fun hno => ⟨_, rfl, ?waits⟩⟩
  case acknowledged =>
    rw [waitOutTurn_outAck h]
    rfl
  case waits =>
    obtain ⟨rest, hack, -⟩ | ⟨rest, -, heq⟩ | ⟨-, heq⟩ | ⟨-, -, -, heq⟩ := waitOutTurn_cases s
    · exact absurd hack (hno rest)
    · rw [heq]
    · rw [heq]
      exact hostDecides_eq s
    · rw [heq]

theorem waitInTurn_of_no_move {s : State} (hanswer : ∀ a rest, s.host ≠ .answer a :: rest)
    (hidle : ∀ rest, s.host ≠ .idle :: rest) (hnil : s.host = [] → s.hostRest = .silent) :
    waitInTurn s = s := by
  obtain ⟨a, rest, h, -⟩ | ⟨rest, h, -⟩ | ⟨h, heq⟩ | ⟨-, -, -, heq⟩ := waitInTurn_cases s
  · exact absurd h (hanswer a rest)
  · exact absurd h (hidle rest)
  · rw [heq, hostDecides_silent (hnil h)]
  · exact heq

theorem waitOutTurn_of_no_move {s : State} (hack : ∀ rest, s.host ≠ .outAck :: rest)
    (hidle : ∀ rest, s.host ≠ .idle :: rest) (hnil : s.host = [] → s.hostRest = .silent) :
    waitOutTurn s = s := by
  obtain ⟨rest, h, -⟩ | ⟨rest, h, -⟩ | ⟨h, heq⟩ | ⟨-, -, -, heq⟩ := waitOutTurn_cases s
  · exact absurd h (hack rest)
  · exact absurd h (hidle rest)
  · rw [heq, hostDecides_silent (hnil h)]
  · exact heq

/-- Settles O31: without an answer the turn stays in the state, drops an idle move, or decides. -/
theorem unansweredRequestStaysOutstanding : Obligations.UnansweredRequestStaysOutstanding := by
  intro s hl
  refine ⟨fun hrun hanswer hidle hnil => ?waitIn, fun hrun hack hidle hnil => ?waitOut,
    fun rest hw h => ⟨step_of_host_idle hl hw.ne_running h, rfl⟩,
    fun hw h => ⟨_, step_of_host_nil hl hw.ne_running h, hostDecides_eq s,
      OnlyHostChanged.request (hostDecides_eq s)⟩⟩
  case waitIn => rw [step_waitIn hl hrun, waitInTurn_of_no_move hanswer hidle hnil]
  case waitOut => rw [step_waitOut hl hrun, waitOutTurn_of_no_move hack hidle hnil]

/-! ### Runs of a waiting core (R69, R81) -/

theorem State.after_succ_of_next {s t : State} (h : step s = .next t) (n : Nat) :
    s.after (n + 1) = t.after n := by
  simp only [State.after, h]

theorem State.after_two {s t u : State} (h : step s = .next t) (h' : step t = .next u) :
    s.after 2 = u := by
  rw [State.after_succ_of_next h, State.after_succ_of_next h' 0, State.after]

/-- Settles O53: the step of such a core is the identity, so every run is. -/
theorem silentHostLeavesTheCoreWaiting : Obligations.SilentHostLeavesTheCoreWaiting := by
  intro s hl hw hhost hsilent n
  have hstep : step s = .next s := by
    rw [step_of_host_nil hl hw.ne_running hhost, hostDecides_silent hsilent]
  induction n with
  | zero => rfl
  | succ n ih => rw [State.after_succ_of_next hstep, ih]

theorem step_answering_waitIn {s : State} {next : InAnswer} {later : List InAnswer}
    (hl : s.legal = true) (hhost : s.host = []) (hrest : s.hostRest = .answering next later)
    (hrun : s.runState = .waitIn) :
    step s = .next { s with host := [.answer next], hostRest := .rotated next later } := by
  rw [step_of_host_nil hl (by simp [hrun]) hhost, hostDecides_answering_waitIn hrest hrun]

theorem step_answering_waitOut {s : State} {next : InAnswer} {later : List InAnswer}
    (hl : s.legal = true) (hhost : s.host = []) (hrest : s.hostRest = .answering next later)
    (hrun : s.runState = .waitOut) : step s = .next { s with host := [.outAck] } := by
  rw [step_of_host_nil hl (by simp [hrun]) hhost, hostDecides_answering_waitOut hrest hrun]

/-- Settles O54: one step decides, the next one completes. -/
theorem answeringHostAnswersTheRequest : Obligations.AnsweringHostAnswersTheRequest := by
  intro s next later hl hhost hrest
  constructor
  · intro hrun
    rw [State.after_two (step_answering_waitIn hl hhost hrest hrun) (step_waitIn hl hrun),
      waitInTurn_answer rfl, ← hhost]
  · intro hrun
    rw [State.after_two (step_answering_waitOut hl hhost hrest hrun) (step_waitOut hl hrun),
      waitOutTurn_outAck rfl, ← hhost]

/-! ### The free host (R81) -/

/-- Settles O56: the decision of a free host takes the free move where `hostMay` admits it. -/
theorem freeHostMakesOnlyMovesItMay : Obligations.FreeHostMakesOnlyMovesItMay := by
  intro s m hl hhost hrest hm
  have hdecides : hostDecides s =
      { s with host := if s.hostMay m then [m] else [], hostIndex := s.hostIndex + 1 } := by
    simp only [hostDecides, hrest, hm]
  constructor
  · intro hmay
    have hrun : s.runState ≠ .running := by
      rintro hr
      simp [State.MayMove, State.Terminal, hr] at hmay
    rw [step_of_host_nil hl hrun hhost, hdecides, if_pos (State.hostMay_iff.mpr hmay)]
  · intro hrun hmay
    rw [step_of_host_nil hl hrun hhost, hdecides, if_neg (mt State.hostMay_iff.mp hmay), ← hhost]

end Sys2Proof.Machine

/-! What a step leaves unchanged, by the execution state (10_state.md R24, 42_io.md R82,
70_reset_and_hazards.md R109 to R111). -/

namespace Sys2Proof.Machine

/-! ### A running core -/

/-- The fields that no step of a running core changes. -/
structure RunFrame (s t : State) : Prop where
  params : t.params = s.params
  size : t.mem.size = s.mem.size
  host : t.host = s.host
  hostRest : t.hostRest = s.hostRest
  hostIndex : t.hostIndex = s.hostIndex
  inputLog : t.inputLog = s.inputLog
  outputLog : t.outputLog = s.outputLog

theorem enterFault_runFrame (e : Raise) (s : State) : RunFrame s (enterFault e s) :=
  ⟨rfl, rfl, rfl, rfl, rfl, rfl, rfl⟩

theorem Committed.runFrame {s t : State} (hc : Committed s t) : RunFrame s t := by
  cases hc
  all_goals
    subst t
    exact ⟨rfl, rfl, rfl, rfl, rfl, rfl, rfl⟩

theorem exec_runFrame {i : Instr} {s t : State} (h : exec i s = .next t) : RunFrame s t := by
  obtain hc | ⟨e, -, rfl⟩ := exec_cases h
  · exact hc.runFrame
  · exact enterFault_runFrame e s

theorem step_runFrame {s t : State} (h : step s = .next t) (hrun : s.runState = .running) :
    RunFrame s t := by
  obtain ⟨i, -, hi⟩ | ⟨e, -, rfl⟩ := step_running_cases h hrun
  · exact exec_runFrame hi
  · exact enterFault_runFrame e s

/-! ### A waiting core -/

/-- What the completion of a Read leaves unchanged; the answer is consumed (R77, R78). -/
theorem completeRead_frame (a : InAnswer) (s : State) :
    (completeRead a s).params = s.params ∧ (completeRead a s).mem.size = s.mem.size ∧
      (completeRead a s).host = s.host ∧ (completeRead a s).hostRest = s.hostRest ∧
      (completeRead a s).inputLog = s.inputLog ++ [a] ∧
      (completeRead a s).outputLog = s.outputLog := by
  obtain ⟨v, -, -, -, heq⟩ | ⟨-, heq⟩ | ⟨-, heq⟩ := completeRead_cases a s
  all_goals
    rw [heq]
    exact ⟨rfl, rfl, rfl, rfl, rfl, rfl⟩

theorem waitInTurn_params_size (s : State) :
    (waitInTurn s).params = s.params ∧ (waitInTurn s).mem.size = s.mem.size := by
  obtain ⟨a, rest, -, heq⟩ | ⟨rest, -, heq⟩ | ⟨-, heq⟩ | ⟨-, -, -, heq⟩ := waitInTurn_cases s
  · obtain ⟨hparams, hsize, -⟩ := completeRead_frame a { s with host := rest }
    rw [heq]
    exact ⟨hparams, hsize⟩
  all_goals simp [heq]

theorem waitOutTurn_params_size (s : State) :
    (waitOutTurn s).params = s.params ∧ (waitOutTurn s).mem.size = s.mem.size := by
  obtain ⟨rest, -, heq⟩ | ⟨rest, -, heq⟩ | ⟨-, heq⟩ | ⟨-, -, -, heq⟩ := waitOutTurn_cases s
  all_goals simp [heq]

theorem waitInTurn_logs (s : State) :
    (waitInTurn s).outputLog = s.outputLog ∧
      ((waitInTurn s).inputLog = s.inputLog ∨
        ∃ a, s.host.head? = some (.answer a) ∧ (waitInTurn s).inputLog = s.inputLog ++ [a]) := by
  obtain ⟨a, rest, hhost, heq⟩ | ⟨rest, -, heq⟩ | ⟨-, heq⟩ | ⟨-, -, -, heq⟩ := waitInTurn_cases s
  · obtain ⟨-, -, -, -, hin, hout⟩ := completeRead_frame a { s with host := rest }
    rw [heq]
    exact ⟨hout, .inr ⟨a, by simp [hhost], hin⟩⟩
  all_goals simp [heq]

theorem waitOutTurn_logs (s : State) :
    (waitOutTurn s).inputLog = s.inputLog ∧
      ((waitOutTurn s).outputLog = s.outputLog ∨
        s.host.head? = some .outAck ∧ (waitOutTurn s).outputLog = s.outputLog ++ [s.ioLatch]) := by
  obtain ⟨rest, hhost, heq⟩ | ⟨rest, -, heq⟩ | ⟨-, heq⟩ | ⟨-, -, -, heq⟩ := waitOutTurn_cases s
  · rw [heq]
    exact ⟨rfl, .inr ⟨by simp [hhost], rfl⟩⟩
  all_goals simp [heq]

/-! ### A core in a terminal state -/

/-- A turn in a terminal state changes the host's own fields only, or it is load and start. -/
theorem terminalTurn_onlyHost_or_load (s : State) :
    (OnlyHostChanged s (terminalTurn s) ∧
      ((terminalTurn s).host = s.host ∨ s.host = .idle :: (terminalTurn s).host ∨ s.host = [])) ∨
    ∃ image, s.host = .load image :: (terminalTurn s).host ∧ imageLegal s.params image = true ∧
      terminalTurn s = loadStart image { s with host := (terminalTurn s).host } := by
  obtain ⟨image, rest, hhost, himage, heq⟩ | ⟨rest, hhost, heq⟩ | ⟨hhost, heq⟩ | ⟨-, -, -, heq⟩ :=
    terminalTurn_cases s
  · refine .inr ⟨image, ?_, himage, ?_⟩ <;> rw [heq]
    · exact hhost
    · rfl
  · rw [heq]
    exact .inl ⟨rfl, .inr (.inl hhost)⟩
  · rw [heq]
    exact .inl ⟨hostDecides_eq s, .inr (.inr hhost)⟩
  · rw [heq]
    exact .inl ⟨rfl, .inl rfl⟩

/-- Settles O46: such a step is a turn in a terminal state. -/
theorem terminalStatesAreLeftOnlyByLoad : Obligations.TerminalStatesAreLeftOnlyByLoad := by
  intro s t hterm h
  obtain ⟨hl, -⟩ := step_cases h
  rw [step_terminal hl hterm] at h
  cases h
  exact terminalTurn_onlyHost_or_load s

theorem terminalTurn_params (s : State) : (terminalTurn s).params = s.params := by
  obtain ⟨honly, -⟩ | ⟨image, -, -, heq⟩ := terminalTurn_onlyHost_or_load s
  · rw [honly]
  · rw [heq]
    rfl

theorem terminalTurn_logs (s : State) :
    ((terminalTurn s).runState = s.runState ∧ (terminalTurn s).inputLog = s.inputLog ∧
      (terminalTurn s).outputLog = s.outputLog) ∨
    ((∃ image, s.host.head? = some (.load image)) ∧ (terminalTurn s).runState = .running ∧
      (terminalTurn s).inputLog = [] ∧ (terminalTurn s).outputLog = []) := by
  obtain ⟨honly, -⟩ | ⟨image, hhost, -, heq⟩ := terminalTurn_onlyHost_or_load s
  · rw [honly]
    exact .inl ⟨rfl, rfl, rfl⟩
  · rw [heq]
    exact .inr ⟨⟨image, by rw [hhost]; rfl⟩, rfl, rfl, rfl⟩

/-! ### Every step -/

/-- Settles O47: no instruction, completion, decision or load changes the parameters, and only a
load changes `N`. -/
theorem parametersAndSizeAreFixedForARun : Obligations.ParametersAndSizeAreFixedForARun := by
  intro s t h
  obtain ⟨-, hstep⟩ := step_cases h
  cases hstep with
  | ran i _ _ hi =>
    have hframe := exec_runFrame hi
    exact ⟨hframe.params, fun _ => hframe.size⟩
  | fetchFault e _ _ ht =>
    subst ht
    exact ⟨rfl, fun _ => rfl⟩
  | waitedIn _ ht =>
    obtain ⟨hparams, hsize⟩ := waitInTurn_params_size s
    subst ht
    exact ⟨hparams, fun _ => hsize⟩
  | waitedOut _ ht =>
    obtain ⟨hparams, hsize⟩ := waitOutTurn_params_size s
    subst ht
    exact ⟨hparams, fun _ => hsize⟩
  | stopped hterm ht =>
    subst ht
    exact ⟨terminalTurn_params s, fun hnot => absurd hterm hnot⟩

/-- Settles O32: the histories belong to the turn of each execution state. -/
theorem historyGrowsOnlyByCompletions : Obligations.HistoryGrowsOnlyByCompletions := by
  intro s t h
  obtain ⟨hl, -⟩ := step_cases h
  refine ⟨fun hrun => ?running, fun hrun => ?waitIn, fun hrun => ?waitOut, fun hterm => ?terminal⟩
  case running =>
    have hframe := step_runFrame h hrun
    exact ⟨hframe.host, hframe.hostRest, hframe.hostIndex, hframe.inputLog, hframe.outputLog⟩
  case waitIn =>
    rw [step_waitIn hl hrun] at h
    cases h
    exact waitInTurn_logs s
  case waitOut =>
    rw [step_waitOut hl hrun] at h
    cases h
    exact waitOutTurn_logs s
  case terminal =>
    rw [step_terminal hl hterm] at h
    cases h
    exact terminalTurn_logs s

/-! ### Load and start -/

theorem step_load {s : State} {image : List Word} {rest : List HostMove} (hl : s.legal = true)
    (hterm : s.Terminal) (hhost : s.host = .load image :: rest)
    (himage : imageLegal s.params image = true) :
    step s = .next (loadStart image { s with host := rest }) := by
  rw [step_terminal hl hterm, terminalTurn_load hhost himage]

/-- After a load every address of the image reads the image's word (R109). -/
theorem memRead_loadStart {s : State} {image : List Word} {k : Nat} {v : Word}
    (hk : image[k]? = some v) : memRead (loadStart image s) (k : Int) = .ok v := by
  obtain ⟨hlt, -⟩ := List.getElem?_eq_some_iff.mp hk
  rw [memRead_inRange (by simpa [InRange] using hlt), loadStart_mem, Int.toNat_natCast,
    Memory.get_ofImage]
  simp [hk]

/-- Settles O44: the load is the host's move, and `loadStart` sets every field. -/
theorem loadSetsEveryField : Obligations.LoadSetsEveryField := by
  intro s image rest hl hterm hhost himage
  obtain ⟨hW, -⟩ := State.legal_iff.mp hl
  exact ⟨_, step_load hl hterm hhost himage, rfl, Memory.ofImage_wf image,
    fun k v hk => memRead_loadStart hk, rfl, rfl, rfl, rfl, rfl, rfl, rfl,
    wrapW_fits (Nat.le_trans (by decide) hW) _, rfl, rfl, rfl, rfl⟩

/-- Settles O48: both steps are load and start, which reads nothing but the image, the parameters
and the host. -/
theorem loadForgetsTheEarlierRun : Obligations.LoadForgetsTheEarlierRun := by
  intro s s' t t' image rest hterm hterm' hparams hrest hindex hhost hhost' himage h h'
  obtain ⟨hl, -⟩ := step_cases h
  obtain ⟨hl', -⟩ := step_cases h'
  rw [step_load hl hterm hhost himage] at h
  rw [step_load hl' hterm' hhost' (hparams ▸ himage)] at h'
  cases h
  cases h'
  exact ⟨rfl, rfl, rfl, rfl, rfl, rfl, rfl, rfl, hparams, rfl, hrest, hindex,
    fun hw => absurd rfl hw.ne_running⟩

end Sys2Proof.Machine

/-! A host that answers every request (42_io.md R81). -/

namespace Sys2Proof.Machine

/-! ### Runs -/

/-- A run goes on by the next step, or the core has stopped for good. -/
theorem State.after_cases (s : State) :
    (∃ t, step s = .next t ∧ ∀ n, s.after (n + 1) = t.after n) ∨ ∀ n, s.after n = s := by
  cases h : step s with
  | next t => exact .inl ⟨t, rfl, State.after_succ_of_next h⟩
  | fault r =>
    right
    rintro (_ | n)
    · rfl
    · simp only [State.after, h]
  | refused r =>
    right
    rintro (_ | n)
    · rfl
    · simp only [State.after, h]

theorem State.after_add (n m : Nat) (s : State) : s.after (n + m) = (s.after n).after m := by
  induction n generalizing s with
  | zero => rw [Nat.zero_add, State.after]
  | succ n ih =>
    obtain ⟨t, -, hafter⟩ | hstopped := s.after_cases
    · rw [Nat.succ_add, hafter, hafter, ih]
    · simp only [hstopped]

/-- What every step keeps holds after any number of steps. -/
theorem State.after_keeps {P : State → Prop} (hstep : ∀ s t, P s → step s = .next t → P t)
    (n : Nat) {s : State} (hs : P s) : P (s.after n) := by
  induction n generalizing s with
  | zero => exact hs
  | succ n ih =>
    obtain ⟨t, ht, hafter⟩ | hstopped := s.after_cases
    · rw [hafter]
      exact ih (hstep s t hs ht)
    · rw [hstopped]
      exact hs

/-! ### The invariant of a run with an answering host -/

/-- The host has decided on nothing, or on the answer to the outstanding request. -/
inductive AnswerDecided (s : State) : Prop where
  | nothing (h : s.host = [])
  | answer (hrun : s.runState = .waitIn) (a : InAnswer) (h : s.host = [.answer a])
  | outAck (hrun : s.runState = .waitOut) (h : s.host = [.outAck])

/-- A core whose host answers every request. -/
structure Answering (s : State) : Prop where
  legal : s.legal = true
  rest : ∃ next later, s.hostRest = .answering next later
  decided : AnswerDecided s

theorem State.legal_of_params_size {s t : State} (hl : s.legal = true)
    (hparams : t.params = s.params) (hsize : t.mem.size = s.mem.size) : t.legal = true := by
  rw [State.legal_iff] at hl ⊢
  rwa [hparams, hsize]

theorem completeRead_not_waiting (a : InAnswer) (s : State) : ¬ (completeRead a s).Waiting := by
  obtain ⟨v, -, -, -, heq⟩ | ⟨-, heq⟩ | ⟨-, heq⟩ := completeRead_cases a s
  all_goals simp [heq, State.Waiting]

theorem completeWrite_not_waiting (s : State) : ¬ (completeWrite s).Waiting := by
  simp [State.Waiting]

/-- A completed Read leaves the host with nothing decided. -/
theorem Answering.of_completeRead {s : State} (hs : Answering s) (a : InAnswer) :
    Answering (completeRead a { s with host := [] }) := by
  obtain ⟨hparams, hsize, hhost, hrest, -⟩ := completeRead_frame a { s with host := [] }
  exact ⟨State.legal_of_params_size hs.legal hparams hsize, by rw [hrest]; exact hs.rest,
    .nothing hhost⟩

/-- An answering host that has decided on nothing decides on the answer to the request, if there is
one, and on nothing otherwise. -/
theorem Answering.of_hostDecides {s : State} (hs : Answering s) (hhost : s.host = []) :
    Answering (hostDecides s) := by
  obtain ⟨hl, ⟨next, later, hrest⟩, hdecided⟩ := hs
  cases hrun : s.runState with
  | waitIn =>
    rw [hostDecides_answering_waitIn hrest hrun]
    exact ⟨hl, HostRest.rotated_answering next later, .answer hrun next rfl⟩
  | waitOut =>
    rw [hostDecides_answering_waitOut hrest hrun]
    exact ⟨hl, ⟨next, later, hrest⟩, .outAck hrun rfl⟩
  | running | halted | faulted =>
    have hsame : hostDecides s = s := by simp only [hostDecides, hrest, hrun]
    rw [hsame]
    exact ⟨hl, ⟨next, later, hrest⟩, .nothing hhost⟩

/-- A running core leaves the host as it is. -/
theorem Answering.of_runFrame {s t : State} (hs : Answering s) (hhost : s.host = [])
    (h : RunFrame s t) : Answering t :=
  ⟨State.legal_of_params_size hs.legal h.params h.size, h.hostRest ▸ hs.rest,
    .nothing (h.host.trans hhost)⟩

theorem step_keeps_answering (s t : State) (hs : Answering s) (h : step s = .next t) :
    Answering t := by
  cases hs.decided with
  | nothing hhost =>
    by_cases hrun : s.runState = .running
    · exact hs.of_runFrame hhost (step_runFrame h hrun)
    · rw [step_of_host_nil hs.legal hrun hhost] at h
      cases h
      exact hs.of_hostDecides hhost
  | answer hrun a hhost =>
    rw [step_waitIn hs.legal hrun, waitInTurn_answer hhost] at h
    cases h
    exact hs.of_completeRead a
  | outAck hrun hhost =>
    rw [step_waitOut hs.legal hrun, waitOutTurn_outAck hhost] at h
    cases h
    exact ⟨hs.legal, hs.rest, .nothing rfl⟩

/-- A wait ends within two steps: the host decides, if it has not, and the core completes. -/
theorem Answering.wait_ends {s : State} (hs : Answering s) (hw : s.Waiting) :
    ∃ k, 0 < k ∧ ¬ (s.after k).Waiting := by
  cases hs.decided with
  | nothing hhost =>
    obtain ⟨next, later, hrest⟩ := hs.rest
    obtain ⟨hread, hwrite⟩ := answeringHostAnswersTheRequest s next later hs.legal hhost hrest
    refine ⟨2, by decide, ?_⟩
    rcases hw with hrun | hrun
    · rw [hread hrun]
      exact completeRead_not_waiting _ _
    · rw [hwrite hrun]
      exact completeWrite_not_waiting _
  | answer hrun a hhost =>
    refine ⟨1, by decide, ?_⟩
    rw [State.after_succ_of_next (step_waitIn hs.legal hrun) 0, State.after,
      waitInTurn_answer hhost]
    exact completeRead_not_waiting _ _
  | outAck hrun hhost =>
    refine ⟨1, by decide, ?_⟩
    rw [State.after_succ_of_next (step_waitOut hs.legal hrun) 0, State.after,
      waitOutTurn_outAck hhost]
    exact completeWrite_not_waiting _

/-- Settles O55: the whole run has an answering host, so each wait in it ends. -/
theorem answeringHostAnswersEveryRequest : Obligations.AnsweringHostAnswersEveryRequest := by
  intro s next later hl hhost hrest n hw
  have hs : Answering s := ⟨hl, ⟨next, later, hrest⟩, .nothing hhost⟩
  obtain ⟨k, hk, hend⟩ := (State.after_keeps step_keeps_answering n hs).wait_ends hw
  exact ⟨n + k, by omega, by rwa [State.after_add]⟩

end Sys2Proof.Machine

/-! The invariant (10_state.md, 20_memory.md, 60_exceptions.md): it holds at reset, and every step
keeps it. -/

namespace Sys2Proof.Machine

/-- Settles O45: `State.reset` lists these values. -/
theorem resetValues : Obligations.ResetValues :=
  ⟨rfl, rfl, rfl, rfl, rfl, rfl, rfl⟩

/-- The clauses of the invariant that speak of a waiting or a faulted core are void in any other
one. -/
theorem State.inv_of_active {s : State} (hrun : s.runState = .running ∨ s.runState = .halted)
    (hl : s.legal = true) (hwf : s.mem.wf = true) (hfits : s.mem.fits s.params.W = true)
    (hpc : s.pc ≤ halfRange s.params.W) (hlatch : FitsW s.params.W s.ioLatch)
    (hout : ∀ v ∈ s.outputLog, FitsW s.params.W v) (hrec : s.NoFaultRecorded) : s.Inv := by
  refine ⟨hl, hwf, hfits, hpc, hlatch, hout, ?_, ?_, fun _ => hrec, ?_⟩
  all_goals rcases hrun with hrun | hrun <;> simp [State.Waiting, hrun]

theorem fitsW_zero (W : Nat) : FitsW W 0 := by
  have := halfRange_pos W
  constructor <;> omega

/-- Settles O49: the reset state runs, on an empty memory and with no fault recorded. -/
theorem resetMeetsTheInvariant : Obligations.ResetMeetsTheInvariant :=
  State.inv_of_active (.inl rfl) (State.legal_iff.mpr ⟨by decide, Nat.zero_le _⟩)
    State.reset_mem_wf rfl (Nat.zero_le _) (fitsW_zero _) (by simp [State.reset]) ⟨rfl, rfl, rfl⟩

/-! ### Faults -/

/-- A cause and an info that R95 gives for a fault of the state. -/
structure Recordable (s : State) (e : Raise) : Prop where
  cause : e.cause ≠ .none
  parseError : e.cause = .parseError → e.info = 0
  overflow : e.cause = .overflow →
    (e.info = 1 ∨ e.info = 2) ∧ s.params.overflowPolicy = .fault

theorem recordable_parseError (s : State) : Recordable s ⟨.parseError, 0⟩ :=
  ⟨by simp, fun _ => rfl, by simp⟩

theorem Raised.recordable {s : State} {e : Raise} (he : Raised s e) : Recordable s e := by
  cases he with
  | address a _ h => exact h ▸ ⟨by simp, by simp, by simp⟩
  | overflow op hop hpolicy h =>
    subst h
    exact ⟨by simp, by simp, fun _ => ⟨by rcases hop with rfl | rfl <;> simp, hpolicy⟩⟩

theorem fetchDecode_recordable {s : State} {e : Raise} (h : fetchDecode s = .error e) :
    Recordable s e := by
  obtain ⟨-, rfl⟩ | ⟨w, r, -, -, rfl⟩ := fetchDecode_error h
  all_goals exact ⟨by simp, by simp, by simp⟩

theorem enterFault_inv {s : State} {e : Raise} (hs : s.Inv) (he : Recordable s e) :
    (enterFault e s).Inv := by
  obtain ⟨hl, hwf, hfits, hpc, hlatch, hout, -, -, -, -⟩ := hs
  exact ⟨hl, hwf, hfits, hpc, hlatch, hout, by simp [State.Waiting], by simp, by simp,
    fun _ => ⟨he.cause, rfl, he.parseError, he.overflow⟩⟩

/-! ### Instructions -/

/-- One rule for each way to commit. A parameter word inside memory bounds the next `pc`. -/
theorem Committed.inv {s t : State} (hc : Committed s t) (hs : s.Inv)
    (hrun : s.runState = .running) : t.Inv := by
  obtain ⟨hl, hwf, hfits, hpc, hlatch, hout, -, -, hclear, -⟩ := hs
  obtain ⟨hW, hsize⟩ := State.legal_iff.mp hl
  have hrec : s.NoFaultRecorded := hclear (by simp [hrun])
  cases hc with
  | stored a r hp ha hr h =>
    subst h
    obtain ⟨-, hend⟩ := hp
    exact State.inv_of_active (.inl hrun) hl (Memory.set_wf hwf r (by omega))
      (Memory.set_fits hfits _ (hr hW)) (show s.pc + 4 ≤ halfRange s.params.W by omega)
      hlatch hout hrec
  | jumped d hd hv h =>
    subst h
    obtain ⟨a, rfl⟩ := hv
    obtain ⟨-, hmax⟩ := Memory.get_fits hfits a
    exact State.inv_of_active (.inl hrun) hl hwf hfits
      (show (s.mem.get a).toNat ≤ halfRange s.params.W by omega) hlatch hout hrec
  | fell hp h =>
    subst h
    obtain ⟨-, hend⟩ := hp
    exact State.inv_of_active (.inl hrun) hl hwf hfits
      (show s.pc + 3 ≤ halfRange s.params.W by omega) hlatch hout hrec
  | requestedInput a hp ha hv h =>
    subst h
    obtain ⟨b, rfl⟩ := hv
    obtain ⟨-, hend⟩ := hp
    exact ⟨hl, hwf, hfits, hpc, Memory.get_fits hfits b, hout, fun _ => Int.ofNat_lt.mp hend,
      fun _ => ha, fun _ => hrec, by simp⟩
  | requestedOutput v hp hv h =>
    subst h
    obtain ⟨b, rfl⟩ := hv
    obtain ⟨-, hend⟩ := hp
    exact ⟨hl, hwf, hfits, hpc, Memory.get_fits hfits b, hout, fun _ => Int.ofNat_lt.mp hend,
      by simp, fun _ => hrec, by simp⟩
  | halted h =>
    subst h
    exact State.inv_of_active (.inr rfl) hl hwf hfits hpc hlatch hout hrec

theorem exec_inv {i : Instr} {s t : State} (h : exec i s = .next t) (hs : s.Inv)
    (hrun : s.runState = .running) : t.Inv := by
  obtain hc | ⟨e, he, rfl⟩ := exec_cases h
  · exact hc.inv hs hrun
  · exact enterFault_inv hs he.recordable

/-! ### The host's moves -/

/-- The invariant says nothing of the host. -/
theorem OnlyHostChanged.inv {s t : State} (h : OnlyHostChanged s t) (hs : s.Inv) : t.Inv := by
  rw [h]
  exact hs

theorem completeRead_inv {s : State} (hs : s.Inv) (hrun : s.runState = .waitIn) (a : InAnswer) :
    (completeRead a s).Inv := by
  have hlogged : State.Inv { s with inputLog := s.inputLog ++ [a] } := hs
  obtain ⟨hl, hwf, hfits, hpc, hlatch, hout, hwait, hin, hclear, -⟩ := hs
  obtain ⟨-, hsize⟩ := State.legal_iff.mp hl
  have hnext := hwait (.inl hrun)
  obtain ⟨v, -, hv, hr, heq⟩ | ⟨-, heq⟩ | ⟨hout, -⟩ := completeRead_cases a s
  · rw [heq]
    exact State.inv_of_active (.inl rfl) hl (Memory.set_wf hwf v (by omega))
      (Memory.set_fits hfits _ hv) (show s.pc + 2 ≤ halfRange s.params.W by omega) hlatch hout
      (hclear (by simp [hrun]))
  · rw [heq]
    exact enterFault_inv hlogged (recordable_parseError _)
  · exact absurd (hin hrun) hout

theorem completeWrite_inv {s : State} (hs : s.Inv) (hrun : s.runState = .waitOut) :
    (completeWrite s).Inv := by
  obtain ⟨hl, hwf, hfits, hpc, hlatch, hout, hwait, -, hclear, -⟩ := hs
  obtain ⟨-, hsize⟩ := State.legal_iff.mp hl
  have hnext := hwait (.inr hrun)
  have hout' : ∀ v ∈ s.outputLog ++ [s.ioLatch], FitsW s.params.W v := by
    intro v hv
    rcases List.mem_append.mp hv with hv | hv
    · exact hout v hv
    · rw [List.mem_singleton.mp hv]
      exact hlatch
  exact State.inv_of_active (.inl rfl) hl hwf hfits
    (show s.pc + 2 ≤ halfRange s.params.W by omega) hlatch hout' (hclear (by simp [hrun]))

theorem loadStart_inv {s : State} {image : List Word} (hl : s.legal = true)
    (himage : imageLegal s.params image = true) : (loadStart image s).Inv := by
  obtain ⟨hW, -⟩ := State.legal_iff.mp hl
  obtain ⟨hlength, hwords⟩ := imageLegal_iff.mp himage
  exact State.inv_of_active (.inl rfl) (State.legal_iff.mpr ⟨hW, hlength⟩) (Memory.ofImage_wf image)
    (Memory.ofImage_fits hwords) (Nat.zero_le _) (wrapW_fits (Nat.le_trans (by decide) hW) _)
    (by simp) ⟨rfl, rfl, rfl⟩

theorem waitInTurn_inv {s : State} (hs : s.Inv) (hrun : s.runState = .waitIn) :
    (waitInTurn s).Inv := by
  obtain ⟨a, rest, -, heq⟩ | ⟨rest, -, heq⟩ | ⟨-, heq⟩ | ⟨-, -, -, heq⟩ := waitInTurn_cases s
  all_goals rw [heq]
  · exact completeRead_inv (s := { s with host := rest }) hs hrun a
  · exact hs
  · exact OnlyHostChanged.inv (hostDecides_eq s) hs
  · exact hs

theorem waitOutTurn_inv {s : State} (hs : s.Inv) (hrun : s.runState = .waitOut) :
    (waitOutTurn s).Inv := by
  obtain ⟨rest, -, heq⟩ | ⟨rest, -, heq⟩ | ⟨-, heq⟩ | ⟨-, -, -, heq⟩ := waitOutTurn_cases s
  all_goals rw [heq]
  · exact completeWrite_inv (s := { s with host := rest }) hs hrun
  · exact hs
  · exact OnlyHostChanged.inv (hostDecides_eq s) hs
  · exact hs

theorem terminalTurn_inv {s : State} (hs : s.Inv) : (terminalTurn s).Inv := by
  obtain ⟨honly, -⟩ | ⟨image, -, himage, heq⟩ := terminalTurn_onlyHost_or_load s
  · exact honly.inv hs
  · obtain ⟨hl, -⟩ := hs
    rw [heq]
    exact loadStart_inv hl himage

/-- Settles O50: one rule for each thing a step can do. -/
theorem stepKeepsTheInvariant : Obligations.StepKeepsTheInvariant := by
  intro s t hs h
  obtain ⟨-, hstep⟩ := step_cases h
  cases hstep with
  | ran i hrun _ hi => exact exec_inv hi hs hrun
  | fetchFault e _ he ht => exact ht ▸ enterFault_inv hs (fetchDecode_recordable he)
  | waitedIn hrun ht => exact ht ▸ waitInTurn_inv hs hrun
  | waitedOut hrun ht => exact ht ▸ waitOutTurn_inv hs hrun
  | stopped _ ht => exact ht ▸ terminalTurn_inv hs

end Sys2Proof.Machine

/-! Noninterference of the latch (10_state.md R21, R23): states that differ in nothing but the
latch, and agree on it in a wait, stay so and show the host the same. -/

namespace Sys2Proof.Machine

section
variable {s s' : State}

/-! ### Nothing outside a wait reads the latch -/

theorem SameButLatch.readParam_eq (h : SameButLatch s s') (i : Nat) (m : Mode) :
    readParam s i m = readParam s' i m := by
  simp only [readParam, paramWord, memRead, h.mem, h.pc]

theorem SameButLatch.writeAddr_eq (h : SameButLatch s s') (i : Nat) (m : Mode) :
    writeAddr s i m = writeAddr s' i m := by
  simp only [writeAddr, paramWord, memRead, h.mem, h.pc]

theorem SameButLatch.fetchDecode_eq (h : SameButLatch s s') : fetchDecode s = fetchDecode s' := by
  simp only [fetchDecode, memRead, h.mem, h.pc, h.params]

theorem SameButLatch.hostMay_eq (h : SameButLatch s s') (m : HostMove) :
    s.hostMay m = s'.hostMay m := by
  simp only [State.hostMay, h.runState, h.params]

/-! ### The view of the host (R68, R75, R84) -/

theorem SameButLatch.status_eq (h : SameButLatch s s') : s.status = s'.status := by
  simp only [State.status, h.runState, h.pc, h.mem, h.faultCause, h.faultPc, h.faultInfo]

theorem SameButLatch.report_eq (h : SameButLatch s s') : s.report = s'.report := by
  simp only [State.report, h.status_eq, h.outputLog, h.inputLog]

/-- An output request shows the latch, and the core then waits. -/
theorem SameButLatch.request_eq (h : SameButLatch s s') : s.request = s'.request := by
  have hrun := h.runState
  cases hr : s.runState with
  | waitOut => simp [State.request, ← hrun, hr, h.latch (.inr hr)]
  | running | waitIn | halted | faulted => simp [State.request, ← hrun, hr]

/-! ### The updates of the state keep the relation -/

theorem SameButLatch.setPc (h : SameButLatch s s') (a : Nat) :
    SameButLatch (s.setPc a) (s'.setPc a) :=
  { h with pc := rfl }

theorem SameButLatch.setHost (h : SameButLatch s s') (rest : List HostMove) :
    SameButLatch { s with host := rest } { s' with host := rest } :=
  { h with host := rfl }

/-- Entering a state that does not wait leaves the latches free to differ. -/
theorem SameButLatch.setRunState (h : SameButLatch s s') {r : RunState}
    (hr : r ≠ .waitIn ∧ r ≠ .waitOut) :
    SameButLatch { s with runState := r } { s' with runState := r } :=
  { h with runState := rfl, latch := fun hw => absurd hw (not_or.mpr hr) }

/-- A request latches the same word in both. -/
theorem SameButLatch.setLatch (h : SameButLatch s s') (v : Word) (r : RunState) :
    SameButLatch { s with ioLatch := v, runState := r } { s' with ioLatch := v, runState := r } :=
  { h with runState := rfl, latch := fun _ => rfl }

theorem SameButLatch.enterFault_same (h : SameButLatch s s') (e : Raise) :
    SameButLatch (enterFault e s) (enterFault e s') :=
  { h with
    runState := rfl
    faultCause := rfl
    faultPc := h.pc
    faultInfo := rfl
    latch := fun hw => by simp [State.Waiting] at hw }

/-! ### Instructions -/

/-- Two results that agree: the same exception, or states that differ only in the latch. -/
inductive SameResult : Except Raise State → Except Raise State → Prop where
  | error (e : Raise) : SameResult (.error e) (.error e)
  | ok {t t' : State} (h : SameButLatch t t') : SameResult (.ok t) (.ok t')

/-- Two outcomes that agree: next states that differ only in the latch. -/
def SameNext (o o' : Host.Outcome State Fault Refusal) : Prop :=
  ∃ t t', o = .next t ∧ o' = .next t' ∧ SameButLatch t t'

theorem SameButLatch.next {t t' : State} (h : SameButLatch t t') : SameNext (.next t) (.next t') :=
  ⟨t, t', rfl, rfl, h⟩

theorem SameButLatch.finish_same (h : SameButLatch s s') {r r' : Except Raise State}
    (hr : SameResult r r') : SameNext (finish s r) (finish s' r') := by
  cases hr with
  | error e => exact (h.enterFault_same e).next
  | ok ht => exact ht.next

theorem SameButLatch.threeParam_same (h : SameButLatch s s')
    (alu : Word → Word → Except Raise Word) (m1 m2 m3 : Mode) :
    SameResult (threeParam alu m1 m2 m3 s) (threeParam alu m1 m2 m3 s') := by
  cases ha : readParam s 1 m1 with
  | error e =>
    have ha' := h.readParam_eq 1 m1 ▸ ha
    rw [threeParam_of_first_error ha, threeParam_of_first_error ha']
    exact .error e
  | ok a =>
    have ha' := h.readParam_eq 1 m1 ▸ ha
    cases hb : readParam s 2 m2 with
    | error e =>
      have hb' := h.readParam_eq 2 m2 ▸ hb
      rw [threeParam_of_second_error ha hb, threeParam_of_second_error ha' hb']
      exact .error e
    | ok b =>
      have hb' := h.readParam_eq 2 m2 ▸ hb
      cases ht : writeAddr s 3 m3 with
      | error e =>
        have ht' := h.writeAddr_eq 3 m3 ▸ ht
        rw [threeParam_of_target_error ha hb ht, threeParam_of_target_error ha' hb' ht']
        exact .error e
      | ok t =>
        have ht' := h.writeAddr_eq 3 m3 ▸ ht
        cases hr : alu a b with
        | error e =>
          rw [threeParam_of_alu_error ha hb ht hr, threeParam_of_alu_error ha' hb' ht' hr]
          exact .error e
        | ok r =>
          rw [threeParam_commits ha hb ht hr, threeParam_commits ha' hb' ht' hr]
          exact .ok { h with mem := by rw [h.mem], pc := by rw [h.pc] }

theorem SameButLatch.jumpTo_same (h : SameButLatch s s') (d : Int) :
    SameResult (jumpTo d s) (jumpTo d s') := by
  unfold jumpTo
  split
  · exact .error _
  · exact .ok (h.setPc _)

theorem SameButLatch.conditionalJump_same (h : SameButLatch s s') (taken : Word → Bool)
    (m1 m2 : Mode) : SameResult (conditionalJump taken m1 m2 s) (conditionalJump taken m1 m2 s') := by
  unfold conditionalJump
  rw [h.readParam_eq, h.readParam_eq, h.pc]
  cases readParam s' 1 m1 with
  | error e => exact .error e
  | ok c =>
    cases readParam s' 2 m2 with
    | error e => exact .error e
    | ok d =>
      dsimp only
      split
      · exact h.jumpTo_same d
      · exact .ok (h.setPc _)

theorem SameButLatch.exec_arith_same (h : SameButLatch s s') (op : Nat) (m1 m2 m3 : Mode) :
    SameNext (finish s (threeParam (arith s.params op) m1 m2 m3 s))
      (finish s' (threeParam (arith s'.params op) m1 m2 m3 s')) := by
  rw [h.params]
  exact h.finish_same (h.threeParam_same _ m1 m2 m3)

theorem SameButLatch.exec_read_same (h : SameButLatch s s') (m1 m2 m3 : Mode) :
    SameNext (exec (.read m1 m2 m3) s) (exec (.read m1 m2 m3) s') := by
  have heq := h.writeAddr_eq 1 m1
  cases ha : writeAddr s 1 m1 with
  | error e =>
    rw [exec_read_of_writeAddr_error ha, exec_read_of_writeAddr_error (heq ▸ ha)]
    exact (h.enterFault_same e).next
  | ok a =>
    rw [exec_read_of_writeAddr_ok ha, exec_read_of_writeAddr_ok (heq ▸ ha)]
    exact (h.setLatch a .waitIn).next

theorem SameButLatch.exec_write_same (h : SameButLatch s s') (m1 m2 m3 : Mode) :
    SameNext (exec (.write m1 m2 m3) s) (exec (.write m1 m2 m3) s') := by
  have heq := h.readParam_eq 1 m1
  cases hv : readParam s 1 m1 with
  | error e =>
    rw [exec_write_of_readParam_error hv, exec_write_of_readParam_error (heq ▸ hv)]
    exact (h.enterFault_same e).next
  | ok v =>
    rw [exec_write_of_readParam_ok hv, exec_write_of_readParam_ok (heq ▸ hv)]
    exact (h.setLatch v .waitOut).next

theorem SameButLatch.exec_same (h : SameButLatch s s') (i : Instr) :
    SameNext (exec i s) (exec i s') := by
  cases i with
  | add m1 m2 m3 => exact h.exec_arith_same 1 m1 m2 m3
  | multiply m1 m2 m3 => exact h.exec_arith_same 2 m1 m2 m3
  | lessThan m1 m2 m3 => exact h.finish_same (h.threeParam_same _ m1 m2 m3)
  | equals m1 m2 m3 => exact h.finish_same (h.threeParam_same _ m1 m2 m3)
  | jumpIfTrue m1 m2 m3 => exact h.finish_same (h.conditionalJump_same _ m1 m2)
  | jumpIfFalse m1 m2 m3 => exact h.finish_same (h.conditionalJump_same _ m1 m2)
  | read m1 m2 m3 => exact h.exec_read_same m1 m2 m3
  | write m1 m2 m3 => exact h.exec_write_same m1 m2 m3
  | halt m1 m2 m3 => exact (h.setRunState (by simp)).next

/-! ### The host's moves -/

theorem SameButLatch.hostDecides_same (h : SameButLatch s s') :
    SameButLatch (hostDecides s) (hostDecides s') := by
  have hfields : (hostDecides s).host = (hostDecides s').host ∧
      (hostDecides s).hostRest = (hostDecides s').hostRest ∧
      (hostDecides s).hostIndex = (hostDecides s').hostIndex := by
    simp only [hostDecides, h.hostMay_eq, h.hostRest, h.hostIndex, h.runState]
    cases s'.hostRest with
    | silent => exact ⟨h.host, h.hostRest, h.hostIndex⟩
    | answering next later =>
      cases s'.runState
      all_goals simp [h.host, h.hostRest, h.hostIndex]
    | free => simp
  obtain ⟨hhost, hrest, hindex⟩ := hfields
  rw [hostDecides_eq s, hostDecides_eq s']
  exact { h with host := hhost, hostRest := hrest, hostIndex := hindex }

theorem SameButLatch.completeRead_same (h : SameButLatch s s') (hlatch : s.ioLatch = s'.ioLatch)
    (a : InAnswer) : SameButLatch (completeRead a s) (completeRead a s') := by
  have hlogged : SameButLatch { s with inputLog := s.inputLog ++ [a] }
      { s' with inputLog := s'.inputLog ++ [a] } :=
    { h with inputLog := by rw [h.inputLog] }
  cases a with
  | malformed => exact hlogged.enterFault_same _
  | value v =>
    by_cases hv : FitsW s.params.W v
    · have hv' : FitsW s'.params.W v := h.params ▸ hv
      have hrange : InRange s s.ioLatch ↔ InRange s' s'.ioLatch := by
        simp only [InRange, h.mem, hlatch]
      by_cases hr : InRange s s.ioLatch
      · rw [completeRead_of_fits hv hr, completeRead_of_fits hv' (hrange.mp hr)]
        exact
          { hlogged with
            mem := by rw [h.mem, hlatch]
            pc := by rw [h.pc]
            runState := rfl
            latch := fun _ => hlatch }
      · rw [completeRead_of_latch_outOfRange hv hr,
          completeRead_of_latch_outOfRange hv' (mt hrange.mpr hr)]
        have he : Raise.mk .addressError s.ioLatch = ⟨.addressError, s'.ioLatch⟩ := by rw [hlatch]
        exact he ▸ hlogged.enterFault_same _
    · have hreject : ∀ u, InAnswer.value v = .value u → ¬ FitsW s.params.W u := by
        rintro u ⟨⟩
        exact hv
      rw [completeRead_of_rejected hreject, completeRead_of_rejected (h.params ▸ hreject)]
      exact hlogged.enterFault_same _

theorem SameButLatch.completeWrite_same (h : SameButLatch s s') (hlatch : s.ioLatch = s'.ioLatch) :
    SameButLatch (completeWrite s) (completeWrite s') :=
  { h with
    outputLog := by simp [h.outputLog, hlatch]
    pc := by simp [h.pc]
    runState := rfl
    latch := fun _ => hlatch }

/-- A load draws a latch of its own for each core, and neither waits after it (R109). -/
theorem SameButLatch.loadStart_same (h : SameButLatch s s') (image : List Word) :
    SameButLatch (loadStart image s) (loadStart image s') :=
  { h with
    pc := rfl
    mem := rfl
    runState := rfl
    faultCause := rfl
    faultPc := rfl
    faultInfo := rfl
    inputLog := rfl
    outputLog := rfl
    latch := fun hw => by simp [State.Waiting] at hw }

theorem SameButLatch.waitInTurn_same (h : SameButLatch s s') (hlatch : s.ioLatch = s'.ioLatch) :
    SameButLatch (waitInTurn s) (waitInTurn s') := by
  unfold waitInTurn
  rw [h.host]
  split
  case h_1 a rest _ => exact (h.setHost rest).completeRead_same hlatch a
  case h_2 rest _ => exact h.setHost rest
  case h_5 => exact h.hostDecides_same
  all_goals exact h

theorem SameButLatch.waitOutTurn_same (h : SameButLatch s s') (hlatch : s.ioLatch = s'.ioLatch) :
    SameButLatch (waitOutTurn s) (waitOutTurn s') := by
  unfold waitOutTurn
  rw [h.host]
  split
  case h_1 rest _ => exact (h.setHost rest).completeWrite_same hlatch
  case h_2 rest _ => exact h.setHost rest
  case h_5 => exact h.hostDecides_same
  all_goals exact h

theorem SameButLatch.terminalTurn_same (h : SameButLatch s s') :
    SameButLatch (terminalTurn s) (terminalTurn s') := by
  unfold terminalTurn
  rw [h.host]
  split
  case h_1 image rest _ =>
    have himage : imageLegal s.params image = imageLegal s'.params image := by rw [h.params]
    rw [himage]
    split
    · exact (h.setHost rest).loadStart_same image
    · exact h
  case h_2 rest _ => exact h.setHost rest
  case h_5 => exact h.hostDecides_same
  all_goals exact h

/-! ### Every step -/

theorem SameButLatch.step_same (h : SameButLatch s s') (hl : s.legal = true)
    (hl' : s'.legal = true) : SameNext (step s) (step s') := by
  have hrun' := h.runState
  cases hr : s.runState with
  | running =>
    rw [step_running hl hr, step_running hl' (hrun' ▸ hr), h.fetchDecode_eq]
    cases fetchDecode s' with
    | ok i => exact h.exec_same i
    | error e => exact (h.enterFault_same e).next
  | waitIn =>
    rw [step_waitIn hl hr, step_waitIn hl' (hrun' ▸ hr)]
    exact (h.waitInTurn_same (h.latch (.inl hr))).next
  | waitOut =>
    rw [step_waitOut hl hr, step_waitOut hl' (hrun' ▸ hr)]
    exact (h.waitOutTurn_same (h.latch (.inr hr))).next
  | halted =>
    rw [step_terminal hl (.inl hr), step_terminal hl' (.inl (hrun' ▸ hr))]
    exact h.terminalTurn_same.next
  | faulted =>
    rw [step_terminal hl (.inr hr), step_terminal hl' (.inr (hrun' ▸ hr))]
    exact h.terminalTurn_same.next

end

/-- Settles O51: a step keeps the relation, and related states look the same to the host. -/
theorem latchIsNotObservable : Obligations.LatchIsNotObservable := by
  intro s s' t t' h hs hs'
  obtain ⟨hl, -⟩ := step_cases hs
  obtain ⟨hl', -⟩ := step_cases hs'
  obtain ⟨u, u', hu, hu', hsame⟩ := h.step_same hl hl'
  obtain rfl : t = u := by simpa [hs] using hu
  obtain rfl : t' = u' := by simpa [hs'] using hu'
  exact ⟨hsame, hsame.status_eq, hsame.report_eq, hsame.request_eq⟩

end Sys2Proof.Machine
